-- ==== Sys2Proof/Word.lean ====
section
/-!
DEFINITION. The bit vectors of the machine: what the spec adds, masks, shifts or encodes as bits.
-/

namespace Sys2Proof

/-- The addressable unit and the width of a general register, of DT and of ST (R5, R20, R26, R27). -/
abbrev Byte := BitVec 8

/-- An instruction word (R70). -/
abbrev Word := BitVec 16

/-- The type of pc, I and the stack entries; ADDR_REG_WIDTH says how many of the 16 bits they keep (R5, R22, R24, R25;
log 16). -/
abbrev Addr := BitVec 16

/-- The X and Y fields: the index of a general register (R20, R71). -/
abbrev RegIx := BitVec 4

end Sys2Proof
end

