-- ==== Sys2Proof/Config.lean ====
section
/-!
DEFINITION. The configuration: every implementation parameter of 00_scope.md R5 as a field, with the stated value as
its default; and the free values (opaque constants: nothing in Lean can evaluate one).
-/

namespace Sys2Proof

/-- `ADDR_REG_WIDTH`: 16, or the alternative 12 (R5, D5, U10; log 16). -/
inductive AddrWidth where
  | bits16
  | bits12
  deriving DecidableEq, Repr

/-- `SHIFT_SOURCE`: the register SHR and SHL shift (R5, R128, R130, U1). -/
inductive ShiftSource where
  | vy
  | vx
  deriving DecidableEq, Repr

/-- `VF_WRITE_ORDER`: the order of the two writes of a flag-writing instruction (R5, R9, U9). -/
inductive WriteOrder where
  | flagThenResult
  | resultThenFlag
  deriving DecidableEq, Repr

/-- `WAIT_KEY_MODE`: what ends the wait of FX0A (R5, R163, D18, U13): a key being down, a key going down, or a key
going up. -/
inductive WaitKeyMode where
  | level
  | press
  | release
  deriving DecidableEq, Repr

/-- The bytes of one glyph: "4*5 font", one row a byte (R142). -/
def glyphBytes : Nat := 5

/-- The sixteen glyphs of R56 in the order 0 to F, five rows each (log 20). -/
def standardFont : List Byte :=
  [0xF0, 0x90, 0x90, 0x90, 0xF0] ++ [0x20, 0x60, 0x20, 0x20, 0x70] ++
  [0xF0, 0x10, 0xF0, 0x80, 0xF0] ++ [0xF0, 0x10, 0xF0, 0x10, 0xF0] ++
  [0x90, 0x90, 0xF0, 0x10, 0x10] ++ [0xF0, 0x80, 0xF0, 0x10, 0xF0] ++
  [0xF0, 0x80, 0xF0, 0x90, 0xF0] ++ [0xF0, 0x10, 0x20, 0x40, 0x40] ++
  [0xF0, 0x90, 0xF0, 0x90, 0xF0] ++ [0xF0, 0x90, 0xF0, 0x10, 0xF0] ++
  [0xF0, 0x90, 0xF0, 0x90, 0x90] ++ [0xE0, 0x90, 0xE0, 0x90, 0xE0] ++
  [0xF0, 0x80, 0x80, 0x80, 0xF0] ++ [0xE0, 0x90, 0x90, 0x90, 0xE0] ++
  [0xF0, 0x80, 0xF0, 0x80, 0xF0] ++ [0xF0, 0x80, 0xF0, 0x80, 0x80]

/-- The configuration, fixed for a machine: the parameters of R5, each with the stated value as its default.
INIT, the launch's own parameter, is `Launch` (Machine/Launch.lean). -/
structure Config where
  /-- `MEM_SIZE` (R50; log 17) -/
  memSize : Nat := 4096
  /-- `ADDR_REG_WIDTH`: the bits that a write of I, pc or a stack entry keeps (R8, R24; log 16) -/
  addrWidth : AddrWidth := .bits16
  /-- `SCREEN_W` (R29; log 22) -/
  screenW : Nat := 64
  /-- `SCREEN_H` (R29; log 22) -/
  screenH : Nat := 32
  /-- `STACK_DEPTH` (R25; log 18) -/
  stackDepth : Nat := 16
  /-- `NUM_KEYS` (R30; log 19) -/
  numKeys : Nat := 16
  /-- `TIMER_HZ` (R178): no rule depends on the number, so nothing reads it (log 1) -/
  timerHz : Nat := 60
  /-- `FONT_BASE` (R56, R142; log 20); `Config.fontPlaced` is its bound -/
  fontBase : Nat := 0x000
  /-- `FONT`: 16 glyphs of 5 bytes (R56, R190; log 20) -/
  font : Vector Byte 80 := ⟨standardFont.toArray, rfl⟩
  /-- `PROGRAM_BASE`: load address and entry point (R35, R190; log 21) -/
  programBase : Nat := 0x200
  /-- `SHIFT_SOURCE` (R128, R130; log 13) -/
  shiftSource : ShiftSource := .vy
  /-- `RET_OPCODE`: the low twelve bits of RET's word 0NNN; C1 places RET inside 0NNN (R101; log 11) -/
  retNNN : BitVec 12 := 0x0EE
  /-- `VF_WRITE_ORDER` (R9; log 14) -/
  vfWriteOrder : WriteOrder := .flagThenResult
  /-- `SUB_FLAG_ON_EQUAL`: true stands for 1 (R127, R129; log 15) -/
  subFlagOnEqual : Bool := true
  /-- `WAIT_KEY_MODE` (R163; log 35) -/
  waitKeyMode : WaitKeyMode := .level
  /-- `REQUIRE_EVEN_PC` (R54; log 28) -/
  requireEvenPc : Bool := false
  deriving DecidableEq, Repr

/-- "stored at addr below 0x512": the last font byte lies below 0x512, the one constraint the source puts on FONT_BASE,
kept as the literal figure (R56, D20, G12). -/
abbrev Config.fontPlaced (c : Config) : Prop := c.fontBase + 79 < 0x512

/-- How many values an address register holds (R8, U10). -/
def AddrWidth.modulus : AddrWidth → Nat
  | .bits16 => 65536
  | .bits12 => 4096

/-- FREE VALUE (log 7): the byte of the n-th random draw, "a number between 0 and 255 included" (R31, R131). -/
opaque Config.freeByte : Nat → Byte

/-- FREE VALUE (log 8): the n-th choice among several keys that end a wait together (R163). -/
opaque Config.freeChoice : Nat → Nat

/-- FREE VALUE (log 6): how many times the timer agent ticks at boundary n, where the schedule does not say (R178). -/
opaque Config.freeTicks : Nat → Nat

/-- FREE VALUE (log 5): whether the host holds a key down after boundary n, where the schedule does not say
(R30, R182). -/
opaque Config.freeKeys : Nat → Nat → Bool

end Sys2Proof
end

