-- ==== Sys2Proof/Syntax.lean ====
section
/-!
DEFINITION. The 35 instructions (30_encoding.md R75), one constructor a row of spec/opcode_table.json, in its order.
-/

namespace Sys2Proof

/-- An instruction with its operand fields (R71): `x` and `y` name registers, `n`, `nn`, `nnn` are immediates. -/
inductive Instr where
  /-- SYS, 0NNN (R100) -/
  | sys (nnn : BitVec 12)
  /-- CLS, 00E0 (R150) -/
  | cls
  /-- RET, 00EE (R101) -/
  | ret
  /-- JMP, 1NNN (R102) -/
  | jmp (nnn : BitVec 12)
  /-- CALL, 2NNN (R103) -/
  | call (nnn : BitVec 12)
  /-- SKIP_E_IMM, 3XNN (R110) -/
  | skipEImm (x : RegIx) (nn : Byte)
  /-- SKIP_NE_IMM, 4XNN (R111) -/
  | skipNeImm (x : RegIx) (nn : Byte)
  /-- SKIP_E_REG, 5XY0 (R112) -/
  | skipEReg (x y : RegIx)
  /-- LD_IMM, 6XNN (R120) -/
  | ldImm (x : RegIx) (nn : Byte)
  /-- ADD_IMM, 7XNN (R121) -/
  | addImm (x : RegIx) (nn : Byte)
  /-- LD_REG, 8XY0 (R122) -/
  | ldReg (x y : RegIx)
  /-- OR, 8XY1 (R123) -/
  | or (x y : RegIx)
  /-- AND, 8XY2 (R124) -/
  | and (x y : RegIx)
  /-- XOR, 8XY3 (R125) -/
  | xor (x y : RegIx)
  /-- ADD_REG, 8XY4 (R126) -/
  | addReg (x y : RegIx)
  /-- SUB, 8XY5 (R127) -/
  | sub (x y : RegIx)
  /-- SHR, 8XY6 (R128) -/
  | shr (x y : RegIx)
  /-- SUBN, 8XY7 (R129) -/
  | subn (x y : RegIx)
  /-- SHL, 8XYE (R130) -/
  | shl (x y : RegIx)
  /-- SKIP_NE_REG, 9XY0 (R113) -/
  | skipNeReg (x y : RegIx)
  /-- ST_I, ANNN (R140) -/
  | stI (nnn : BitVec 12)
  /-- JMP_V0, BNNN (R104) -/
  | jmpV0 (nnn : BitVec 12)
  /-- RAND, CXNN (R131) -/
  | rand (x : RegIx) (nn : Byte)
  /-- DRAW, DXYN (R151) -/
  | draw (x y : RegIx) (n : BitVec 4)
  /-- SKIP_KP, EX9E (R160) -/
  | skipKp (x : RegIx)
  /-- SKIP_KNP, EXA1 (R161) -/
  | skipKnp (x : RegIx)
  /-- LD_DT, FX07 (R162) -/
  | ldDt (x : RegIx)
  /-- LD_K, FX0A (R163) -/
  | ldK (x : RegIx)
  /-- ST_DT, FX15 (R164) -/
  | stDt (x : RegIx)
  /-- ST_ST, FX18 (R165) -/
  | stSt (x : RegIx)
  /-- ADD_I, FX1E (R141) -/
  | addI (x : RegIx)
  /-- LD_F, FX29 (R142) -/
  | ldF (x : RegIx)
  /-- LD_B, FX33 (R143) -/
  | ldB (x : RegIx)
  /-- ST_REGS, FX55 (R144) -/
  | stRegs (x : RegIx)
  /-- LD_REGS, FX65 (R145) -/
  | ldRegs (x : RegIx)
  deriving DecidableEq, Repr

end Sys2Proof
end

