-- ==== Sys2Proof/WellFormed.lean ====
section
/-!
DEFINITION. Which instruction terms stand for a word of the machine.
The operand types already bound every field (R71), so the only checks are on the words 0NNN, which SYS shares with CLS
and RET (R74, R100).
-/

namespace Sys2Proof

/-- The word 0NNN is neither CLS nor RET (R100). -/
def sysWellFormed (c : Config) (nnn : BitVec 12) : Bool := nnn != 0x0E0 && nnn != c.retNNN

/-- Well-formedness of an instruction: no operand field but SYS's is restricted (R71, R73, R100), and RET has a word of
its own only where RET_OPCODE is not CLS's word (C1). -/
def Instr.wellFormed (c : Config) : Instr → Bool
  | .sys nnn => sysWellFormed c nnn
  | .cls => true
  | .ret => c.retNNN != 0x0E0
  | .jmp _ => true
  | .call _ => true
  | .skipEImm _ _ => true
  | .skipNeImm _ _ => true
  | .skipEReg _ _ => true
  | .ldImm _ _ => true
  | .addImm _ _ => true
  | .ldReg _ _ => true
  | .or _ _ => true
  | .and _ _ => true
  | .xor _ _ => true
  | .addReg _ _ => true
  | .sub _ _ => true
  | .shr _ _ => true
  | .subn _ _ => true
  | .shl _ _ => true
  | .skipNeReg _ _ => true
  | .stI _ => true
  | .jmpV0 _ => true
  | .rand _ _ => true
  | .draw _ _ _ => true
  | .skipKp _ => true
  | .skipKnp _ => true
  | .ldDt _ => true
  | .ldK _ => true
  | .stDt _ => true
  | .stSt _ => true
  | .addI _ => true
  | .ldF _ => true
  | .ldB _ => true
  | .stRegs _ => true
  | .ldRegs _ => true

end Sys2Proof
end

