-- ==== Sys2Proof/Decode.lean ====
section
/-!
DEFINITION. The decoder of 30_encoding.md R71 to R76, total on words and on lists of bytes, and after it the encoder,
written from the same tables.
-/

namespace Sys2Proof

/-- Why bytes are not an instruction: one name per row of R76's table, and one for a missing byte.
Raised by `decode` and `decodeBytes`; the machine turns the first five into IllegalInstruction (safe: it stops). -/
inductive Reject where
  /-- 5XYN with N not 0 -/
  | illegal5XYN
  /-- 8XYN with N in 8, 9, A, B, C, D, F -/
  | illegal8XYN
  /-- 9XYN with N not 0 -/
  | illegal9XYN
  /-- EXNN with NN not 9E or A1 -/
  | illegalEXNN
  /-- FXNN with NN not one of the nine listed bytes -/
  | illegalFXNN
  /-- fewer than the two bytes every instruction has (R70) -/
  | truncated
  deriving DecidableEq, Repr

/-- The major opcode, bits 15 to 12 (R71). -/
def fieldOp (w : Word) : BitVec 4 := w.extractLsb' 12 4

/-- The field X, bits 11 to 8 (R71). -/
def fieldX (w : Word) : RegIx := w.extractLsb' 8 4

/-- The field Y, bits 7 to 4 (R71). -/
def fieldY (w : Word) : RegIx := w.extractLsb' 4 4

/-- The field N, bits 3 to 0 (R71). -/
def fieldN (w : Word) : BitVec 4 := w.extractLsb' 0 4

/-- The field NN, bits 7 to 0 (R71). -/
def fieldNN (w : Word) : Byte := w.extractLsb' 0 8

/-- The field NNN, bits 11 to 0 (R71). -/
def fieldNNN (w : Word) : BitVec 12 := w.extractLsb' 0 12

/-- The words 8XYN: the digit N selects the instruction (R74). -/
def decodeXY8 (x y : RegIx) (n : BitVec 4) : Except Reject Instr :=
  match n with
  | 0x0 => .ok (.ldReg x y)
  | 0x1 => .ok (.or x y)
  | 0x2 => .ok (.and x y)
  | 0x3 => .ok (.xor x y)
  | 0x4 => .ok (.addReg x y)
  | 0x5 => .ok (.sub x y)
  | 0x6 => .ok (.shr x y)
  | 0x7 => .ok (.subn x y)
  | 0xE => .ok (.shl x y)
  | _ => .error .illegal8XYN

/-- The words EXNN (R74). -/
def decodeXE (x : RegIx) (nn : Byte) : Except Reject Instr :=
  match nn with
  | 0x9E => .ok (.skipKp x)
  | 0xA1 => .ok (.skipKnp x)
  | _ => .error .illegalEXNN

/-- The words FXNN (R74). -/
def decodeXF (x : RegIx) (nn : Byte) : Except Reject Instr :=
  match nn with
  | 0x07 => .ok (.ldDt x)
  | 0x0A => .ok (.ldK x)
  | 0x15 => .ok (.stDt x)
  | 0x18 => .ok (.stSt x)
  | 0x1E => .ok (.addI x)
  | 0x29 => .ok (.ldF x)
  | 0x33 => .ok (.ldB x)
  | 0x55 => .ok (.stRegs x)
  | 0x65 => .ok (.ldRegs x)
  | _ => .error .illegalFXNN

/-- The rows of R74 that the major opcode selects; the words of CLS and RET never come here. -/
def decodeOp (w : Word) : Except Reject Instr :=
  match fieldOp w with
  | 0x0 => .ok (.sys (fieldNNN w))
  | 0x1 => .ok (.jmp (fieldNNN w))
  | 0x2 => .ok (.call (fieldNNN w))
  | 0x3 => .ok (.skipEImm (fieldX w) (fieldNN w))
  | 0x4 => .ok (.skipNeImm (fieldX w) (fieldNN w))
  | 0x5 => if fieldN w = 0 then .ok (.skipEReg (fieldX w) (fieldY w)) else .error .illegal5XYN
  | 0x6 => .ok (.ldImm (fieldX w) (fieldNN w))
  | 0x7 => .ok (.addImm (fieldX w) (fieldNN w))
  | 0x8 => decodeXY8 (fieldX w) (fieldY w) (fieldN w)
  | 0x9 => if fieldN w = 0 then .ok (.skipNeReg (fieldX w) (fieldY w)) else .error .illegal9XYN
  | 0xA => .ok (.stI (fieldNNN w))
  | 0xB => .ok (.jmpV0 (fieldNNN w))
  | 0xC => .ok (.rand (fieldX w) (fieldNN w))
  | 0xD => .ok (.draw (fieldX w) (fieldY w) (fieldN w))
  | 0xE => decodeXE (fieldX w) (fieldNN w)
  | _ => decodeXF (fieldX w) (fieldNN w)

/-- Format NNN (R72). -/
def packNNN (op : BitVec 4) (nnn : BitVec 12) : Word := op ++ nnn

/-- RET's word, 0NNN with the NNN of RET_OPCODE (R101). -/
def Config.retWord (c : Config) : Word := packNNN 0x0 c.retNNN

/-- The decoder of R74: the two fixed patterns are tried before 0NNN. -/
def decode (c : Config) (w : Word) : Except Reject Instr :=
  if w = 0x00E0 then .ok .cls
  else if w = c.retWord then .ok .ret
  else decodeOp w

/-- The word two bytes make, the byte at the lower address in bits 15 to 8 (R52, R71). -/
def wordOfBytes (high low : Byte) : Word := high ++ low

/-- Decode the first instruction of a list of bytes and return the bytes after it (R52, R70). -/
def decodeBytes (c : Config) : List Byte → Except Reject (Instr × List Byte)
  | high :: low :: rest =>
    match decode c (wordOfBytes high low) with
    | .ok i => .ok (i, rest)
    | .error r => .error r
  | _ => .error .truncated

/-- Formats XNN and X (R72); in format X the low byte is the fixed digit pair. -/
def packXNN (op : BitVec 4) (x : RegIx) (nn : Byte) : Word := op ++ x ++ nn

/-- Formats XY and XYN (R72); in format XY the last digit is fixed. -/
def packXYN (op : BitVec 4) (x y : RegIx) (n : BitVec 4) : Word := op ++ x ++ y ++ n

/-- The word of an instruction, from the match column of R75's table and the fields of R71. -/
def encode (c : Config) : Instr → Word
  | .sys nnn => packNNN 0x0 nnn
  | .cls => 0x00E0
  | .ret => c.retWord
  | .jmp nnn => packNNN 0x1 nnn
  | .call nnn => packNNN 0x2 nnn
  | .skipEImm x nn => packXNN 0x3 x nn
  | .skipNeImm x nn => packXNN 0x4 x nn
  | .skipEReg x y => packXYN 0x5 x y 0x0
  | .ldImm x nn => packXNN 0x6 x nn
  | .addImm x nn => packXNN 0x7 x nn
  | .ldReg x y => packXYN 0x8 x y 0x0
  | .or x y => packXYN 0x8 x y 0x1
  | .and x y => packXYN 0x8 x y 0x2
  | .xor x y => packXYN 0x8 x y 0x3
  | .addReg x y => packXYN 0x8 x y 0x4
  | .sub x y => packXYN 0x8 x y 0x5
  | .shr x y => packXYN 0x8 x y 0x6
  | .subn x y => packXYN 0x8 x y 0x7
  | .shl x y => packXYN 0x8 x y 0xE
  | .skipNeReg x y => packXYN 0x9 x y 0x0
  | .stI nnn => packNNN 0xA nnn
  | .jmpV0 nnn => packNNN 0xB nnn
  | .rand x nn => packXNN 0xC x nn
  | .draw x y n => packXYN 0xD x y n
  | .skipKp x => packXNN 0xE x 0x9E
  | .skipKnp x => packXNN 0xE x 0xA1
  | .ldDt x => packXNN 0xF x 0x07
  | .ldK x => packXNN 0xF x 0x0A
  | .stDt x => packXNN 0xF x 0x15
  | .stSt x => packXNN 0xF x 0x18
  | .addI x => packXNN 0xF x 0x1E
  | .ldF x => packXNN 0xF x 0x29
  | .ldB x => packXNN 0xF x 0x33
  | .stRegs x => packXNN 0xF x 0x55
  | .ldRegs x => packXNN 0xF x 0x65

/-- The two bytes of a word as memory holds them, lowest address first (R52). -/
def bytesOfWord (w : Word) : List Byte := [w.extractLsb' 8 8, w.extractLsb' 0 8]

/-- The bytes of an instruction as memory holds them (R52, R70). -/
def encodeBytes (c : Config) (i : Instr) : List Byte := bytesOfWord (encode c i)

/-- The word of an opcode-table row given as a number of `nbits` bits; bits above them are 0.
Every instruction is one word (R70), so bits above 15 belong to no instruction. -/
def tableWord (nbits w : Nat) : Word := BitVec.ofNat 16 (w % 2 ^ nbits)

/-- The instruction the decoder reads, at the default configuration, from an opcode-table word laid out as memory holds
it (R52, R74). -/
def decodeTableWord (nbits w : Nat) : Option Instr :=
  match decodeBytes {} (bytesOfWord (tableWord nbits w)) with
  | .ok (i, _) => some i
  | .error _ => none

end Sys2Proof
end

