-- ==== Sys2Proof/Machine/State.lean ====
section
/-!
DEFINITION. The state of the machine (10_state.md) as plain data, the ways a step can stop, and the state after reset.
-/

namespace Sys2Proof.Machine

/-- The faults of 60_exceptions.md R171, with the information each records, and one of the model's own.
A raise ends the run: it puts the machine in the terminal status Faulted and changes nothing else (R174).
All are safe: the run stops where the spec gives no meaning. -/
inductive RunFault where
  /-- F1, raised by instruction fetch when pc + 1 > 0xFFF. -/
  | fetchOutOfRange (pc : Addr)
  /-- F2, raised by decode for a word that is none of the 35 instructions. -/
  | illegalInstruction (pc : Addr) (word : Word)
  /-- F3, raised by DRAW, LD_B, ST_REGS, LD_REGS; records the lowest offending address. -/
  | addressOutOfRange (pc : Addr) (address : Nat)
  /-- F4, raised by CALL on a full stack. -/
  | stackOverflow (pc : Addr)
  /-- F5, raised by RET on an empty stack. -/
  | stackUnderflow (pc : Addr)
  /-- F6, raised by SKIP_KP and SKIP_KNP when V[X] is no key number. -/
  | badKeyIndex (pc : Addr) (value : Byte)
  /-- Not among the spec's seven: raised by instruction fetch from an odd pc where REQUIRE_EVEN_PC is true, never at the
  default (U17; DESIGN CHOICE, log 28). -/
  | oddFetch (pc : Addr)
  /-- F7, raised by LD_F when V[X] is no hexadecimal digit. -/
  | badFontDigit (pc : Addr) (value : Byte)
  deriving DecidableEq, Repr

/-- The run status (R33). Aborted and Faulted are terminal (R170). -/
inductive Status where
  | running
  | aborted (nnn : BitVec 12)
  | faulted (fault : RunFault)
  deriving DecidableEq, Repr

/-- Why no step of the machine is enabled: the run is over (R33, R170).
Both are raised by `step` alone, never by the meaning of an instruction. -/
inductive Fault where
  /-- The status is Aborted(nnn): SYS was executed. Safe: the spec enables no step (R172). -/
  | runAborted (nnn : BitVec 12)
  /-- The status is Faulted(fault): one of the faults above was raised. Safe: the spec enables no step (R171). -/
  | runFaulted (fault : RunFault)
  deriving DecidableEq, Repr

/-- Refusals. No arm of `exec` refuses. -/
inductive Refusal where
  /-- Raised by an arm of `exec` whose instruction has no meaning yet; safe. No such arm is left. -/
  | notModelled (mnemonic : String)
  deriving DecidableEq, Repr

/-- The key set: for each key number from 0 on, whether the key is down; a number past the list is up (R30, R181). -/
abbrev KeySet := List Bool

/-- The screen matrix, rows from the top, cells of a row from the left (R29, R152). -/
abbrev Screen := List (List Bool)

/-- The memory: the (address, byte) pairs that differ from the contents at the conventional reset, addresses strictly
rising. -/
abbrev Memory := List Host.Cell

/-- What the other two agents do at one boundary between two processor steps (R178, R182):
the timer agent ticks `ticks` times and the host leaves the keys `keys` down. -/
structure Moment where
  ticks : Nat
  keys : KeySet
  deriving DecidableEq, Repr

/-- Everything the spec gives the machine (R20 to R33), the configuration, and four fields of the
model's own (log 29). -/
structure State where
  /-- the configuration (R5): fixed for a machine, no step changes it -/
  config : Config
  /-- V0 to VF (R20); VF is also the flag (R21) -/
  v : Vector Byte 16
  /-- the index register I (R24) -/
  i : Addr
  /-- the program counter (R22) -/
  pc : Addr
  /-- the return stack, newest entry first (R25) -/
  stack : List Addr
  /-- the delay timer DT (R26) -/
  dt : Byte
  /-- the sound timer ST (R27) -/
  st : Byte
  /-- the memory (R28) -/
  mem : Memory
  /-- the screen (R29) -/
  screen : Screen
  /-- the keys now down (R30) -/
  keys : KeySet
  /-- the run status (R33) -/
  status : Status
  /-- the model's own: what the other agents do at the next boundaries, as far as it is fixed (log 29) -/
  schedule : List Moment
  /-- the model's own: how many boundaries have passed (log 29) -/
  turns : Nat
  /-- the model's own: how many free values instructions have taken (log 29) -/
  draws : Nat
  /-- the model's own: the keys at the last try of a held FX0A, kept in the WAIT_KEY_MODEs other than level (log 35) -/
  waiting : Option KeySet
  deriving DecidableEq, Repr

/-- What a step answers. -/
abbrev Result := Host.Outcome State Fault Refusal

/-- A screen of a height and a width with every cell 0. -/
def Screen.blank (height width : Nat) : Screen := List.replicate height (List.replicate width false)

/-- The machine right after reset with no program loaded (R35, R190), at the conventional launch.
pc, stack and status are the spec's; every other value is a DESIGN CHOICE, unsafe (log 2, 3, 4, 29).
Memory lists nothing: an unlisted address reads as its reset contents. The configuration is the default of R5. -/
def State.reset : State where
  config := {}
  v := Vector.replicate 16 0x00
  i := 0x0000
  pc := BitVec.ofNat 16 ({} : Config).programBase
  stack := []
  dt := 0x00
  st := 0x00
  mem := []
  screen := Screen.blank ({} : Config).screenH ({} : Config).screenW
  keys := List.replicate ({} : Config).numKeys false
  status := .running
  schedule := []
  turns := 0
  draws := 0
  waiting := none

end Sys2Proof.Machine
end

