-- ==== Sys2Proof/Machine/Ops.lean ====
section
/-!
DEFINITION. The named operations over registers, pc, stack and memory, and the two ways an instruction ends the run.
-/

namespace Sys2Proof.Machine

/-! ## Registers (R20, R22, R23, R24) -/

/-- V[x] (R7). -/
def State.reg (s : State) (x : RegIx) : Byte := s.v[x.toNat]

/-- V[x] <- b (R7). -/
def State.setReg (s : State) (x : RegIx) (b : Byte) : State := { s with v := s.v.set x.toNat b }

/-- The register VF (R21). -/
def vf : RegIx := 0xF

/-- How many values pc, I and a stack entry hold (ADDR_REG_WIDTH). -/
def State.addrMod (s : State) : Nat := s.config.addrWidth.modulus

/-- What a write of I, pc or a stack entry keeps of an unbounded sum: the low ADDR_REG_WIDTH bits (R7, R8, D5, D36). -/
def State.toAddr (s : State) (sum : Nat) : Addr := BitVec.ofNat 16 (sum % s.addrMod)

/-- The normal advance: pc <- pc + 2 (R23). -/
def State.advance (s : State) : State := { s with pc := s.toAddr (s.pc.toNat + 2) }

/-- A skip: pc <- pc + 4 when the condition holds, else pc + 2 (R114). -/
def State.skipIf (s : State) (taken : Bool) : State :=
  { s with pc := s.toAddr (s.pc.toNat + if taken then 4 else 2) }

/-- V[x] <- b and the normal advance: the whole effect of a load or logic instruction. -/
def State.load (s : State) (x : RegIx) (b : Byte) : Result := .next (s.setReg x b).advance

/-! ## Ending the run (R170 to R174) -/

/-- `raise f`: the run ends as Faulted(f) and every other piece of state is as before the step (R7, R174).
There is no trap entry and no return from a fault (R174, R175). -/
def State.raise (s : State) (f : RunFault) : Result := .next { s with status := .faulted f }

/-- `abort(nnn)`: the run ends as Aborted(nnn) and every other piece of state is as before the step (R100, R172). -/
def State.abort (s : State) (nnn : BitVec 12) : Result := .next { s with status := .aborted nnn }

/-- Go on with the value of an operation, or raise its fault in the state before the instruction (R10, R174). -/
def State.orRaise {α : Type} (s : State) (r : Except RunFault α) (k : α → Result) : Result :=
  match r with
  | .ok a => k a
  | .error f => s.raise f

/-! ## The return stack (R25) -/

/-- `push(a)`; StackOverflow when the stack already holds STACK_DEPTH entries (R25). -/
def State.push (s : State) (a : Addr) : Except RunFault State :=
  if s.stack.length < s.config.stackDepth then .ok { s with stack := a :: s.stack }
  else .error (.stackOverflow s.pc)

/-- `pop()`: the newest entry and the state without it; StackUnderflow when the stack is empty (R25). -/
def State.pop (s : State) : Except RunFault (Addr × State) :=
  match s.stack with
  | a :: rest => .ok (a, { s with stack := rest })
  | [] => .error (.stackUnderflow s.pc)

/-! ## Memory as data (R50) -/

/-- What an address the memory does not list reads as: its contents at the conventional reset, the font byte where the
font lies (R56), elsewhere 0x00 (R35; DESIGN CHOICE, unsafe, log 3). A launch with other contents lists them. -/
def Memory.unlisted (a : Nat) : Byte := (standardFont[a]?).getD 0x00

/-- The byte at an address: the one last written, or the reset contents (R50). -/
def Memory.read : Memory → Nat → Byte
  | [], a => Memory.unlisted a
  | (k, b) :: rest, a => if a = k then b else Memory.read rest a

/-- Write one byte and keep the canonical form: addresses strictly rising, no entry equal to the reset contents. -/
def Memory.write : Memory → Nat → Byte → Memory
  | [], a, b => if b = Memory.unlisted a then [] else [(a, b)]
  | (k, c) :: rest, a, b =>
    if a < k then
      if b = Memory.unlisted a then (k, c) :: rest else (a, b) :: (k, c) :: rest
    else if a = k then
      if b = Memory.unlisted a then rest else (a, b) :: rest
    else (k, c) :: Memory.write rest a b

/-- The canonical form of memory: addresses rise strictly, and no entry equals what an unlisted address reads as. -/
abbrev Memory.wf (m : Memory) : Prop :=
  m.Pairwise (fun c d => c.1 < d.1) ∧ ∀ c ∈ m, c.2 ≠ Memory.unlisted c.1

/-- Every listed address exists in a memory of that size (R50). -/
abbrev Memory.within (m : Memory) (size : Nat) : Prop := ∀ c ∈ m, c.1 < size

/-- The `n` bytes from `a` upward (R53). -/
def Memory.readBytes (m : Memory) (a n : Nat) : List Byte := (List.range n).map fun k => m.read (a + k)

/-- Write bytes at ascending addresses from `a` (R53). -/
def Memory.writeBytes : Memory → Nat → List Byte → Memory
  | m, _, [] => m
  | m, a, b :: rest => Memory.writeBytes (m.write a b) (a + 1) rest

/-! ## Memory accesses of the processor (R51) -/

/-- The fault of a transfer of `n` bytes from `a`, if it has one: its highest address is above the last (0xFFF).
The address recorded is the lowest offending one (R51, R171; log 17). -/
def State.transferFault (s : State) (a n : Nat) : Option RunFault :=
  if 0 < n ∧ s.config.memSize ≤ a + n - 1 then some (.addressOutOfRange s.pc (max a s.config.memSize)) else none

/-- `MemRead` of `n` bytes from `a`: the whole range is checked before the first byte moves (R51). -/
def State.loadBytes (s : State) (a n : Nat) : Except RunFault (List Byte) :=
  match s.transferFault a n with
  | some f => .error f
  | none => .ok (s.mem.readBytes a n)

/-- `MemWrite` of bytes from `a` upward: the whole range is checked before the first byte moves (R51). -/
def State.storeBytes (s : State) (a : Nat) (bytes : List Byte) : Except RunFault State :=
  match s.transferFault a bytes.length with
  | some f => .error f
  | none => .ok { s with mem := s.mem.writeBytes a bytes }

/-- REQUIRE_EVEN_PC is true and pc is odd (R54, U17; log 28). -/
def State.oddRefused (s : State) : Bool := s.config.requireEvenPc && decide (s.pc.toNat % 2 = 1)

/-- `MemRead(pc, 2)`: the instruction word at pc, or FetchOutOfRange (R51, R52); an odd pc is fetched from unless
REQUIRE_EVEN_PC is set (R54). -/
def State.fetchWord (s : State) : Except RunFault Word :=
  if s.pc.toNat + 1 < s.config.memSize then
    if s.oddRefused then .error (.oddFetch s.pc)
    else .ok (wordOfBytes (s.mem.read s.pc.toNat) (s.mem.read (s.pc.toNat + 1)))
  else .error (.fetchOutOfRange s.pc)

end Sys2Proof.Machine
end

