-- ==== Sys2Proof/Machine/Flags.lean ====
section
/-!
DEFINITION. The flag computations (10_state.md R21) and the order of the two writes of a flag-writing instruction (R9).
-/

namespace Sys2Proof.Machine

/-- A flag as the byte VF receives: 1 or 0 (R21). -/
def flagByte (f : Bool) : Byte := if f then 1 else 0

/-- The carry out of bit 7 of a sum of two bytes (R126). -/
def carryFlag (x y : Byte) : Byte := flagByte (decide (x.toNat + y.toNat > 255))

/-- 1 when the subtraction has no borrow: minuend above subtrahend, or equal with SUB_FLAG_ON_EQUAL (R127, R129, C3). -/
def State.noBorrowFlag (s : State) (minuend subtrahend : Byte) : Byte :=
  if minuend = subtrahend then flagByte s.config.subFlagOnEqual
  else flagByte (decide (minuend.toNat > subtrahend.toNat))

/-- The bit a right shift moves out: bit 0, prior to shifting (R128). -/
def shrFlag (source : Byte) : Byte := flagByte (source.getLsbD 0)

/-- The bit a left shift moves out: bit 7, prior to shifting (R130). -/
def shlFlag (source : Byte) : Byte := flagByte (source.getLsbD 7)

/-- 1 when a sum for I passes the valid range 0xFFF (R141). -/
def rangeFlag (sum : Nat) : Byte := flagByte (decide (sum > 0xFFF))

/-- The two writes of an arithmetic instruction that writes the flag: with VF_WRITE_ORDER at its default the flag
is written first, so that with X = 0xF the result is what VF keeps (R9, D8). -/
def State.writeFlagged (s : State) (x : RegIx) (flag result : Byte) : State :=
  match s.config.vfWriteOrder with
  | .flagThenResult => (s.setReg vf flag).setReg x result
  | .resultThenFlag => (s.setReg x result).setReg vf flag

/-- A flag-writing arithmetic instruction: flag, result, normal advance (R9, R23). -/
def State.loadFlagged (s : State) (x : RegIx) (flag result : Byte) : Result :=
  .next (s.writeFlagged x flag result).advance

end Sys2Proof.Machine
end

