-- ==== Sys2Proof/Machine/Operands.lean ====
section
/-!
DEFINITION. The operand forms: how an instruction turns its fields into values (R7, R73, the one addressing mode of
43_index_and_memory.md, the key and digit operands of R77, the drawing position of R152).
-/

namespace Sys2Proof.Machine

/-- `zext_16(NNN)`: an address operand (R73). -/
def immAddr (nnn : BitVec 12) : Addr := nnn.setWidth 16

/-- The operand SHR and SHL shift: V[Y], or V[X] where SHIFT_SOURCE says so (R128, R130). -/
def State.shiftOperand (s : State) (x y : RegIx) : Byte :=
  match s.config.shiftSource with
  | .vy => s.reg y
  | .vx => s.reg x

/-- The base of every data access: the address I holds, an unbounded number (R51). -/
def State.base (s : State) : Nat := s.i.toNat

/-- The registers a range operand names, V0 to V[X] in index order (R144, R145). -/
def State.regRange (s : State) (x : RegIx) : List Byte := s.v.toList.take (x.toNat + 1)

/-- Write the registers of a range operand, V0 to V[X], from bytes in index order (R145). -/
def State.setRegRange (s : State) (x : RegIx) (bytes : List Byte) : State :=
  { s with v := s.v.mapIdx fun k old => if k ≤ x.toNat then bytes.getD k old else old }

/-- The key number V[X] names; BadKeyIndex when no key has it (R77, R160, R161). -/
def State.keyOperand (s : State) (x : RegIx) : Except RunFault Nat :=
  if (s.reg x).toNat < s.config.numKeys then .ok (s.reg x).toNat
  else .error (.badKeyIndex s.pc (s.reg x))

/-- The hexadecimal digit V[X] holds; BadFontDigit above 0xF (R77, R142). -/
def State.digitOperand (s : State) (x : RegIx) : Except RunFault Nat :=
  if (s.reg x).toNat ≤ 0xF then .ok (s.reg x).toNat
  else .error (.badFontDigit s.pc (s.reg x))

/-- The address of the glyph of a digit (R142). -/
def State.glyphAddr (s : State) (digit : Nat) : Addr := s.toAddr (s.config.fontBase + glyphBytes * digit)

/-- The column a sprite starts in: V[X] modulo the screen's width (R151, R152 (b), (e)). -/
def State.startColumn (s : State) (x : RegIx) : Nat := (s.reg x).toNat % s.config.screenW

/-- The row a sprite starts in: V[Y] modulo the screen's height (R151, R152 (b), (e)). -/
def State.startRow (s : State) (y : RegIx) : Nat := (s.reg y).toNat % s.config.screenH

/-- The decimal digits of a byte: hundreds, tens, units (R143). -/
def bcdDigits (b : Byte) : List Byte :=
  [BitVec.ofNat 8 (b.toNat / 100), BitVec.ofNat 8 (b.toNat / 10 % 10), BitVec.ofNat 8 (b.toNat % 10)]

end Sys2Proof.Machine
end

