-- ==== Sys2Proof/Machine/Arith.lean ====
section
/-!
DEFINITION. The meanings of 42_load_and_arithmetic.md: LD_IMM to SHL and RAND. No fault is possible here (R132).
-/

namespace Sys2Proof.Machine

/-- LD_IMM (R120). -/
def execLdImm (x : RegIx) (nn : Byte) (s : State) : Result := s.load x nn

/-- ADD_IMM (R121): modulo 256; VF is not a flag here. -/
def execAddImm (x : RegIx) (nn : Byte) (s : State) : Result := s.load x (s.reg x + nn)

/-- LD_REG (R122). -/
def execLdReg (x y : RegIx) (s : State) : Result := s.load x (s.reg y)

/-- OR (R123). -/
def execOr (x y : RegIx) (s : State) : Result := s.load x (s.reg x ||| s.reg y)

/-- AND (R124). -/
def execAnd (x y : RegIx) (s : State) : Result := s.load x (s.reg x &&& s.reg y)

/-- XOR (R125). -/
def execXor (x y : RegIx) (s : State) : Result := s.load x (s.reg x ^^^ s.reg y)

/-- ADD_REG (R126). -/
def execAddReg (x y : RegIx) (s : State) : Result :=
  s.loadFlagged x (carryFlag (s.reg x) (s.reg y)) (s.reg x + s.reg y)

/-- SUB (R127). -/
def execSub (x y : RegIx) (s : State) : Result :=
  s.loadFlagged x (s.noBorrowFlag (s.reg x) (s.reg y)) (s.reg x - s.reg y)

/-- SHR (R128). -/
def execShr (x y : RegIx) (s : State) : Result :=
  s.loadFlagged x (shrFlag (s.shiftOperand x y)) (s.shiftOperand x y >>> 1)

/-- SUBN (R129). -/
def execSubn (x y : RegIx) (s : State) : Result :=
  s.loadFlagged x (s.noBorrowFlag (s.reg y) (s.reg x)) (s.reg y - s.reg x)

/-- SHL (R130). -/
def execShl (x y : RegIx) (s : State) : Result :=
  s.loadFlagged x (shlFlag (s.shiftOperand x y)) (s.shiftOperand x y <<< 1)

/-- RAND (R131): a free byte, masked (log 7); the counter of free values moves on. -/
def execRand (x : RegIx) (nn : Byte) (s : State) : Result :=
  { s with draws := s.draws + 1 }.load x (Config.freeByte s.draws &&& nn)

end Sys2Proof.Machine
end

