-- ==== Sys2Proof/Machine/Screen.lean ====
section
/-!
DEFINITION. The operations over the screen matrix (10_state.md R29, 44_display.md R151, R152).
-/

namespace Sys2Proof.Machine

/-- One cell; a place outside the matrix has no cell and reads as off (R29). -/
def Screen.cell (m : Screen) (row col : Nat) : Bool := (m.getD row []).getD col false

/-- Flip one cell; outside the matrix there is none to flip (R151). -/
def Screen.flip (m : Screen) (row col : Nat) : Screen := m.modify row fun cells => cells.modify col not

/-- The matrix has that height and that width (R29). -/
abbrev Screen.shaped (m : Screen) (height width : Nat) : Prop := m.length = height ∧ ∀ row ∈ m, row.length = width

/-- What DRAW carries along: the edges where it clips, the screen, and whether a cell has gone from 1 to 0. -/
structure Canvas where
  height : Nat
  width : Nat
  screen : Screen
  collision : Bool
  deriving DecidableEq, Repr

/-- Draw one sprite cell: a bit at 1 flips the cell, and a cell flipped from 1 to 0 is a collision; past the right or
the bottom edge nothing is drawn (R151, R152 (e)). -/
def Canvas.plot (c : Canvas) (row col : Nat) (bit : Bool) : Canvas :=
  if bit = true ∧ row < c.height ∧ col < c.width then
    { c with screen := c.screen.flip row col, collision := c.collision || c.screen.cell row col }
  else c

/-- Draw one sprite row, bit 7 - k of the byte in column `col + k` (R152 (d)). -/
def Canvas.plotRow (c : Canvas) (row col : Nat) (b : Byte) : Canvas :=
  (List.range 8).foldl (fun acc k => acc.plot row (col + k) (b.getLsbD (7 - k))) c

/-- Draw a sprite, one byte a row, downward from `row` (R151, R152 (d)). -/
def Canvas.plotSprite : Canvas → Nat → Nat → List Byte → Canvas
  | c, _, _, [] => c
  | c, row, col, b :: rest => Canvas.plotSprite (c.plotRow row col b) (row + 1) col rest

end Sys2Proof.Machine
end

