-- ==== Sys2Proof/Machine/Display.lean ====
section
/-!
DEFINITION. The meanings of 44_display.md: CLS and DRAW.
-/

namespace Sys2Proof.Machine

/-- CLS (R150): every cell 0; VF stays. -/
def execCls (s : State) : Result := .next { s with screen := Screen.blank s.config.screenH s.config.screenW }.advance

/-- DRAW (R151): all N sprite bytes are checked and read, the sprite is drawn, VF receives the collision. -/
def execDraw (x y : RegIx) (n : BitVec 4) (s : State) : Result :=
  s.orRaise (s.loadBytes s.base n.toNat) fun sprite =>
    let c := Canvas.plotSprite ⟨s.config.screenH, s.config.screenW, s.screen, false⟩ (s.startRow y) (s.startColumn x) sprite
    .next ({ s with screen := c.screen }.setReg vf (flagByte c.collision)).advance

end Sys2Proof.Machine
end

