-- ==== Sys2Proof/Machine/Index.lean ====
section
/-!
DEFINITION. The meanings of 43_index_and_memory.md: ST_I, ADD_I, LD_F, LD_B, ST_REGS, LD_REGS.
-/

namespace Sys2Proof.Machine

/-- ST_I (R140): I <- zext_16(NNN). -/
def execStI (nnn : BitVec 12) (s : State) : Result := .next { s with i := immAddr nnn }.advance

/-- ADD_I (R141): the flag is taken from the untruncated sum, I keeps its low bits. -/
def execAddI (x : RegIx) (s : State) : Result :=
  .next { s.setReg vf (rangeFlag (s.i.toNat + (s.reg x).toNat)) with
          i := s.toAddr (s.i.toNat + (s.reg x).toNat) }.advance

/-- LD_F (R142): I <- the address of the glyph of V[X]. -/
def execLdF (x : RegIx) (s : State) : Result :=
  s.orRaise (s.digitOperand x) fun d => .next { s with i := s.glyphAddr d }.advance

/-- LD_B (R143): hundreds at I, tens at I + 1, units at I + 2; I stays. -/
def execLdB (x : RegIx) (s : State) : Result :=
  s.orRaise (s.storeBytes s.base (bcdDigits (s.reg x))) fun t => .next t.advance

/-- ST_REGS (R144): V0 to V[X] to memory from I upward, then I <- I + X + 1. -/
def execStRegs (x : RegIx) (s : State) : Result :=
  s.orRaise (s.storeBytes s.base (s.regRange x)) fun t =>
    .next { t with i := s.toAddr (s.base + x.toNat + 1) }.advance

/-- LD_REGS (R145): V0 to V[X] from memory from I upward, then I <- I + X + 1. -/
def execLdRegs (x : RegIx) (s : State) : Result :=
  s.orRaise (s.loadBytes s.base (x.toNat + 1)) fun bytes =>
    .next { s.setRegRange x bytes with i := s.toAddr (s.base + x.toNat + 1) }.advance

end Sys2Proof.Machine
end

