-- ==== Sys2Proof/Machine/Agents.lean ====
section
/-!
DEFINITION. The timer agent and the host (60_exceptions.md R178 to R182): what happens at a boundary between two
processor steps, and what the host observes.
-/

namespace Sys2Proof.Machine

/-- One count of a timer: a timer at 0 stays at 0 (R178). -/
def countDown (t : Byte) : Byte := if t.toNat > 0 then t - 1 else t

/-- One tick of the timer agent (R178). -/
def State.tick (s : State) : State := { s with dt := countDown s.dt, st := countDown s.st }

/-- Any number of ticks, one after the other (R178). -/
def State.ticks : Nat → State → State
  | 0, s => s
  | n + 1, s => State.ticks n s.tick

/-- The ticks of a boundary; with both timers at 0 they change nothing, which is said before counting them. -/
def State.timersRun (s : State) (n : Nat) : State :=
  if s.dt = 0 ∧ s.st = 0 then s else s.ticks n

/-- One boundary: the timer agent ticks, the host sets the key set (R178, R182). -/
def State.passMoment (s : State) (m : Moment) : State :=
  { s.timersRun m.ticks with keys := m.keys, turns := s.turns + 1 }

/-- What happens at the next boundary: the schedule's next entry, and free values where the schedule has none
(R30, R178; log 5, log 6). -/
def State.nextMoment (s : State) : Moment :=
  match s.schedule with
  | m :: _ => m
  | [] => ⟨Config.freeTicks s.turns, (List.range s.config.numKeys).map (Config.freeKeys s.turns)⟩

/-- The boundary after a processor step. Once the run is over nothing happens: R178 calls such ticks not observable, and
that the model makes none is a DESIGN CHOICE (log 6). -/
def State.boundary (s : State) : State :=
  match s.status with
  | .running => { s.passMoment s.nextMoment with schedule := s.schedule.tail }
  | .aborted _ => s
  | .faulted _ => s

/-- The processor step's outcome, followed by the boundary. -/
def thenBoundary : Result → Result
  | .next s => .next s.boundary
  | .fault f => .fault f
  | .refused r => .refused r

/-! ## The keypad (R30, R181) -/

/-- Key k is down in a key set (R30). -/
def KeySet.down (ks : KeySet) (k : Nat) : Bool := ks.getD k false

/-- `key_pressed(k)` (R30); a number no key has is not in the set. -/
def State.keyPressed (s : State) (k : Nat) : Bool := decide (k < s.config.numKeys) && KeySet.down s.keys k

/-- The keys down, by rising number (R163). -/
def State.keysDown (s : State) : List Nat := (List.range s.config.numKeys).filter s.keyPressed

/-- The keys that end the wait of FX0A at this try, by rising number: the keys down; or, in the other WAIT_KEY_MODEs,
the keys that went down, or up, since the last try of the same wait (R163, D18, U13; log 35). -/
def State.keysReported (s : State) : List Nat :=
  match s.config.waitKeyMode, s.waiting with
  | .level, _ => s.keysDown
  | .press, some before => s.keysDown.filter fun k => !KeySet.down before k
  | .release, some before =>
    (List.range s.config.numKeys).filter fun k => KeySet.down before k && !s.keyPressed k
  | .press, none => []
  | .release, none => []

/-- A held FX0A: nothing changes (R163), but that the other WAIT_KEY_MODEs remember the keys of this try (log 35). -/
def State.holdWait (s : State) : State :=
  match s.config.waitKeyMode with
  | .level => s
  | .press => { s with waiting := some s.keys }
  | .release => { s with waiting := some s.keys }

/-- The wait of FX0A is over (log 35). -/
def State.endWait (s : State) : State :=
  match s.config.waitKeyMode with
  | .level => s
  | .press => { s with waiting := none }
  | .release => { s with waiting := none }

/-! ## What the host observes (R179, R180, R182) -/

/-- The tone sounds exactly while ST is not 0 (R179). -/
def State.toneSounds (s : State) : Bool := decide (s.st.toNat > 0)

end Sys2Proof.Machine
end

