-- ==== Sys2Proof/Machine/Input.lean ====
section
/-!
DEFINITION. The meanings of 45_keypad_and_timers.md: SKIP_KP, SKIP_KNP, LD_DT, LD_K, ST_DT, ST_ST.
-/

namespace Sys2Proof.Machine

/-- SKIP_KP (R160). -/
def execSkipKp (x : RegIx) (s : State) : Result :=
  s.orRaise (s.keyOperand x) fun k => .next (s.skipIf (s.keyPressed k))

/-- SKIP_KNP (R161). -/
def execSkipKnp (x : RegIx) (s : State) : Result :=
  s.orRaise (s.keyOperand x) fun k => .next (s.skipIf (!s.keyPressed k))

/-- LD_DT (R162). -/
def execLdDt (x : RegIx) (s : State) : Result := s.load x s.dt

/-- LD_K (R163): held while no key ends the wait; else V[X] receives the number of a key that does, a free choice among
them when there are several (log 8, log 9, log 35). -/
def execLdK (x : RegIx) (s : State) : Result :=
  match s.keysReported with
  | [] => .next s.holdWait
  | [k] => s.endWait.load x (BitVec.ofNat 8 k)
  | k :: others =>
    { s.endWait with draws := s.draws + 1 }.load x
      (BitVec.ofNat 8 ((k :: others).getD (Config.freeChoice s.draws % (k :: others).length) k))

/-- ST_DT (R164). -/
def execStDt (x : RegIx) (s : State) : Result := .next { s with dt := s.reg x }.advance

/-- ST_ST (R165). -/
def execStSt (x : RegIx) (s : State) : Result := .next { s with st := s.reg x }.advance

end Sys2Proof.Machine
end

