-- ==== Sys2Proof/Machine/Skips.lean ====
section
/-!
DEFINITION. The meanings of 41_skips.md: SKIP_E_IMM, SKIP_NE_IMM, SKIP_E_REG, SKIP_NE_REG (R114 says what a skip does).
-/

namespace Sys2Proof.Machine

/-- SKIP_E_IMM (R110). -/
def execSkipEImm (x : RegIx) (nn : Byte) (s : State) : Result := .next (s.skipIf (s.reg x == nn))

/-- SKIP_NE_IMM (R111). -/
def execSkipNeImm (x : RegIx) (nn : Byte) (s : State) : Result := .next (s.skipIf (s.reg x != nn))

/-- SKIP_E_REG (R112). -/
def execSkipEReg (x y : RegIx) (s : State) : Result := .next (s.skipIf (s.reg y == s.reg x))

/-- SKIP_NE_REG (R113). -/
def execSkipNeReg (x y : RegIx) (s : State) : Result := .next (s.skipIf (s.reg y != s.reg x))

end Sys2Proof.Machine
end

