-- ==== Sys2Proof/Machine/System.lean ====
section
/-!
DEFINITION. The meanings of 40_system_and_control_flow.md: SYS, RET, JMP, CALL, JMP_V0.
-/

namespace Sys2Proof.Machine

/-- SYS (R100): the run aborts; pc and every other piece of state stay. -/
def execSys (nnn : BitVec 12) (s : State) : Result := s.abort nnn

/-- RET (R101): pc <- pop(), nothing added. -/
def execRet (s : State) : Result :=
  s.orRaise s.pop fun r => .next { r.2 with pc := r.1 }

/-- JMP (R102): pc <- zext_16(NNN). -/
def execJmp (nnn : BitVec 12) (s : State) : Result := .next { s with pc := immAddr nnn }

/-- CALL (R103): push(pc + 2), then pc <- zext_16(NNN). -/
def execCall (nnn : BitVec 12) (s : State) : Result :=
  s.orRaise (s.push (s.toAddr (s.pc.toNat + 2))) fun t => .next { t with pc := immAddr nnn }

/-- JMP_V0 (R104): pc <- zext_16(NNN) + zext_16(V0), not truncated to 12 bits where pc is wider. -/
def execJmpV0 (nnn : BitVec 12) (s : State) : Result :=
  .next { s with pc := s.toAddr (nnn.toNat + (s.reg 0x0).toNat) }

end Sys2Proof.Machine
end

