-- ==== Sys2Proof/Machine/Cycle.lean ====
section
/-!
DEFINITION. One step of the processor alone: fetch, decode, execute (00_scope.md R10, 60_exceptions.md R173).
-/

namespace Sys2Proof.Machine

/-- One processor step while the status is Running; the first raise ends it (R10, R173). -/
def processorStep (s : State) : Result :=
  s.orRaise s.fetchWord fun w =>
    match Sys2Proof.decode s.config w with
    | .ok i => exec i s
    | .error _ => s.raise (.illegalInstruction s.pc w)

end Sys2Proof.Machine
end

