-- ==== Sys2Proof/Machine/Step.lean ====
section
/-!
DEFINITION. One step of the machine: a processor step and the boundary after it.
-/

namespace Sys2Proof.Machine

/-- One step: none is enabled once the run is over (R33, R170); else the processor steps (R10) and the other agents
have their boundary (R178, R183). -/
def step (s : State) : Host.Outcome State Fault Refusal :=
  match s.status with
  | .aborted nnn => .fault (.runAborted nnn)
  | .faulted f => .fault (.runFaulted f)
  | .running => thenBoundary (processorStep s)

/-- `s` with the instruction `w` stored at pc, the status Running and no wait begun, so that the next step fetches and
runs it (R52; log 21). -/
def State.withFetchWord (s : State) (nbits w : Nat) : State :=
  { s with
    mem := s.mem.writeBytes s.pc.toNat (Sys2Proof.bytesOfWord (Sys2Proof.tableWord nbits w))
    status := .running
    waiting := none }

end Sys2Proof.Machine
end

