-- ==== Sys2Proof/Machine/Run.lean ====
section
/-!
DEFINITION. Infinite runs, and the fairness a model assumes of the timer agent (60_exceptions.md R178,
70_reset_and_hazards.md R193, R194).
-/

namespace Sys2Proof.Machine

/-- `r 0`, `r 1`, … is an infinite run: each state steps to the next, so the run never ends (R194).
A held LD_K counts as a step of it (R185; log 9). -/
def IsRun (r : Nat → State) : Prop := ∀ n, step (r n) = .next (r (n + 1))

/-- The timer agent is fair on `r`: whenever DT > 0 a tick will come, at that state's own boundary or a later one
(R178, R193). A premise, never a fact: nothing says that the free values of a run are fair (log 6). -/
def TimerFair (r : Nat → State) : Prop :=
  ∀ n, 0 < (r n).dt.toNat → ∃ m, n ≤ m ∧ 0 < (r m).nextMoment.ticks

/-- No step of `r` from the n-th on runs ST_DT, the one instruction that writes DT (R26). -/
def NeverSetsDelay (r : Nat → State) (n : Nat) : Prop :=
  ∀ m, n ≤ m → ∀ w x, (r m).fetchWord = .ok w → Sys2Proof.decode (r m).config w ≠ .ok (.stDt x)

end Sys2Proof.Machine
end

