-- ==== Sys2Proof/Machine/Spelling.lean ====
section
/-!
DEFINITION. The assembler line of each instruction (30_encoding.md R78 to R80), as data: an operation name and its
operands. How a number is written, labels, directives and the assembler itself are out of scope (00_scope.md R4 (c)).
-/

namespace Sys2Proof

/-- An operand of an assembler line (R78). -/
inductive AsmOperand where
  /-- `<NN>`, or `<N>` of DRAW: a bare number -/
  | number (n : Nat)
  /-- `<Addr>` -/
  | addr (nnn : BitVec 12)
  /-- `<Addr>(V0)`, of JMP_V0 alone -/
  | addrV0 (nnn : BitVec 12)
  /-- `V` and the register's index -/
  | reg (r : RegIx)
  /-- `I`, the index register -/
  | index
  /-- `DT` -/
  | delayTimer
  /-- `ST` -/
  | soundTimer
  deriving DecidableEq, Repr

/-- One assembler line (R78): the operation name, then the operands in the order they are written. -/
structure AsmLine where
  opname : String
  operands : List AsmOperand
  deriving DecidableEq, Repr

/-- The line of each instruction, as the spec reads R79's table: source first, destination last, but for DRAW. -/
def Instr.asmLine : Instr → AsmLine
  | .sys nnn => ⟨"sys", [.addr nnn]⟩
  | .cls => ⟨"cls", []⟩
  | .ret => ⟨"ret", []⟩
  | .jmp nnn => ⟨"jmp", [.addr nnn]⟩
  | .call nnn => ⟨"call", [.addr nnn]⟩
  | .skipEImm x nn => ⟨"skpe", [.number nn.toNat, .reg x]⟩
  | .skipNeImm x nn => ⟨"skpne", [.number nn.toNat, .reg x]⟩
  | .skipEReg x y => ⟨"skpe", [.reg y, .reg x]⟩
  | .ldImm x nn => ⟨"mov", [.number nn.toNat, .reg x]⟩
  | .addImm x nn => ⟨"add", [.number nn.toNat, .reg x]⟩
  | .ldReg x y => ⟨"mov", [.reg y, .reg x]⟩
  | .or x y => ⟨"or", [.reg y, .reg x]⟩
  | .and x y => ⟨"and", [.reg y, .reg x]⟩
  | .xor x y => ⟨"xor", [.reg y, .reg x]⟩
  | .addReg x y => ⟨"add", [.reg y, .reg x]⟩
  | .sub x y => ⟨"sub", [.reg y, .reg x]⟩
  | .shr x y => ⟨"shr", [.reg y, .reg x]⟩
  | .subn x y => ⟨"subn", [.reg y, .reg x]⟩
  | .shl x y => ⟨"shl", [.reg y, .reg x]⟩
  | .skipNeReg x y => ⟨"skipne", [.reg y, .reg x]⟩
  | .stI nnn => ⟨"mov", [.addr nnn, .index]⟩
  | .jmpV0 nnn => ⟨"jmp", [.addrV0 nnn]⟩
  | .rand x nn => ⟨"rand", [.number nn.toNat, .reg x]⟩
  | .draw x y n => ⟨"draw", [.reg x, .reg y, .number n.toNat]⟩
  | .skipKp x => ⟨"skpp", [.reg x]⟩
  | .skipKnp x => ⟨"skpnp", [.reg x]⟩
  | .ldDt x => ⟨"mov", [.delayTimer, .reg x]⟩
  | .ldK x => ⟨"waitk", [.reg x]⟩
  | .stDt x => ⟨"mov", [.reg x, .delayTimer]⟩
  | .stSt x => ⟨"mov", [.reg x, .soundTimer]⟩
  | .addI x => ⟨"add", [.reg x, .index]⟩
  | .ldF x => ⟨"ldhs", [.reg x]⟩
  | .ldB x => ⟨"ldbcd", [.reg x]⟩
  | .stRegs x => ⟨"movm", [.reg x, .index]⟩
  | .ldRegs x => ⟨"movm", [.index, .reg x]⟩

end Sys2Proof
end

