-- ==== Sys2Proof/Machine/Launch.lean ====
section
/-!
DEFINITION. The launch (10_state.md R35, 70_reset_and_hazards.md R190): the host builds the launch state from a
configuration, the launch parameters and a program, and the processor starts stepping.
-/

namespace Sys2Proof.Machine

/-- What a launch supplies: the configuration (R5), the program, and `INIT`, the values the spec leaves to the launch
(R35, D23). Each default is the conventional launch. -/
structure Launch where
  config : Config := {}
  program : List Byte := []
  v : Vector Byte 16 := State.reset.v
  i : Addr := State.reset.i
  dt : Byte := State.reset.dt
  st : Byte := State.reset.st
  /-- `INIT.screen`: the cells that are on, as (row, column) -/
  lit : List (Nat × Nat) := []
  /-- `INIT.mem`: addresses with their byte, the last one for an address counting; elsewhere 0x00 -/
  mem : List Host.Cell := []
  /-- the keys the host holds down at the start (R30) -/
  keys : KeySet := State.reset.keys
  deriving DecidableEq, Repr

/-- Write the cells whose address exists, in the order of the list. -/
def Memory.writeCells (size : Nat) : Memory → List Host.Cell → Memory
  | m, [] => m
  | m, (a, b) :: rest => Memory.writeCells size (if a < size then m.write a b else m) rest

/-- A memory of a size with every byte 0x00: the bytes an unlisted address would read as font are listed. -/
def Memory.zero (size : Nat) : Memory :=
  Memory.writeBytes [] 0 (List.replicate (min standardFont.length size) 0x00)

/-- Memory at launch: INIT, then the font over it, then the program over that (R190). -/
def Launch.memory (p : Launch) : Memory :=
  ((Memory.writeCells p.config.memSize (Memory.zero p.config.memSize) p.mem).writeBytes p.config.fontBase
    p.config.font.toList).writeBytes p.config.programBase p.program

/-- The screen at launch (R190). -/
def Launch.screen (p : Launch) : Screen :=
  (List.range p.config.screenH).map fun r => (List.range p.config.screenW).map fun c => decide ((r, c) ∈ p.lit)

/-- The launch has a launch state: program and font fit in memory (R190, U18), the font lies below 0x512 (R56), and the
two do not overlap (U18). DESIGN CHOICE (log 31): U18 says no more than "overlapping"; an empty program (L = 0) whose
base lies strictly inside the font's range counts as overlapping, and one at either end of that range does not. -/
abbrev Launch.fits (p : Launch) : Prop :=
  p.config.programBase + p.program.length ≤ p.config.memSize ∧
  p.config.fontBase + 80 ≤ p.config.memSize ∧
  p.config.fontPlaced ∧
  (p.config.fontBase + 80 ≤ p.config.programBase ∨
    p.config.programBase + p.program.length ≤ p.config.fontBase)

/-- The launch state (R35, R190); a launch that is not one of those has none (R56, R190, U18; log 31). -/
def State.launch (p : Launch) : Option State :=
  if p.fits then
    let s := { State.reset with config := p.config }
    some { s with
      v := p.v, i := s.toAddr p.i.toNat, pc := s.toAddr p.config.programBase, dt := p.dt, st := p.st
      screen := p.screen, keys := p.keys, mem := p.memory }
  else none

end Sys2Proof.Machine
end

