-- ==== Sys2Proof/Safety.lean ====
section
/-!
DEFINITION. The terms claims are stated in: what a safe state is, the invariant of the machine, and what a step may
leave unchanged.
-/

namespace Sys2Proof.Machine

/-- A safe state: the run has raised no fault (R171). Aborted is not counted as success either (R172). -/
abbrev State.safe (s : State) : Prop := s.status = .running

/-- An instruction can be fetched at pc (R51, R54). -/
abbrev State.canFetch (s : State) : Prop := s.pc.toNat + 1 < s.config.memSize ∧ s.oddRefused = false

/-- `t` has its pc `n` past that of `s`, in ADDR_REG_WIDTH bits (R8, R23). -/
abbrev PcPlus (s t : State) (n : Nat) : Prop := t.pc.toNat = (s.pc.toNat + n) % s.addrMod

/-- The screen has the configuration's height and width (R29). -/
abbrev State.shaped (s : State) : Prop := s.screen.shaped s.config.screenH s.config.screenW

/-- The invariant of the machine: memory is in canonical form and lists existing addresses alone; the stack holds at
most STACK_DEPTH entries, each the address after a CALL that was fetched (R25, R103); pc is at most what an advance or
BNNN can make it, 0x10FE at the default (R23); pc, I and the stack entries fit their width (R24); the screen has its
shape (R29); FONT_BASE keeps its bound (R56). -/
abbrev State.Inv (s : State) : Prop :=
  s.mem.wf ∧ s.mem.within s.config.memSize ∧ s.stack.length ≤ s.config.stackDepth ∧
  (∀ a ∈ s.stack, a.toNat ≤ s.config.memSize ∧ a.toNat < s.addrMod ∧
    (s.config.memSize < s.addrMod → 2 ≤ a.toNat)) ∧
  s.pc.toNat ≤ max (s.config.memSize + 2) 0x10FE ∧ s.pc.toNat < s.addrMod ∧ s.i.toNat < s.addrMod ∧ s.shaped ∧
  s.config.fontPlaced

/-- The pieces of state other than the general registers. -/
inductive Piece where
  | i | pc | stack | dt | st | mem | screen | keys | status | schedule | turns | draws | waiting | config
  deriving DecidableEq, Repr

/-- Two states agree on a piece; memories agree when every address reads the same. -/
def Piece.same : Piece → State → State → Prop
  | .i, s, t => t.i = s.i
  | .pc, s, t => t.pc = s.pc
  | .stack, s, t => t.stack = s.stack
  | .dt, s, t => t.dt = s.dt
  | .st, s, t => t.st = s.st
  | .mem, s, t => ∀ a, t.mem.read a = s.mem.read a
  | .screen, s, t => t.screen = s.screen
  | .keys, s, t => t.keys = s.keys
  | .status, s, t => t.status = s.status
  | .schedule, s, t => t.schedule = s.schedule
  | .turns, s, t => t.turns = s.turns
  | .draws, s, t => t.draws = s.draws
  | .waiting, s, t => t.waiting = s.waiting
  | .config, s, t => t.config = s.config

/-- The frame: `t` differs from `s` at most in the registers `regs` and the pieces `pieces`. -/
def Frame (regs : List RegIx) (pieces : List Piece) (s t : State) : Prop :=
  (∀ r, r ∉ regs → t.reg r = s.reg r) ∧ ∀ p, p ∉ pieces → p.same s t

/-- The cell (r, c) lies on the screen under a sprite bit at 1 of the DRAW at `s` with operands x, y, n: sprite row k
is the byte at I + k, its bit 7 - j falls in column V[X] mod SCREEN_W + j of row V[Y] mod SCREEN_H + k (R151, R152). -/
def DrawnAt (s : State) (x y : RegIx) (n : BitVec 4) (r c : Nat) : Prop :=
  r < s.config.screenH ∧ c < s.config.screenW ∧ ∃ k j, k < n.toNat ∧ j < 8 ∧
    r = (s.reg y).toNat % s.config.screenH + k ∧ c = (s.reg x).toNat % s.config.screenW + j ∧
    (s.mem.read (s.base + k)).getLsbD (7 - j) = true

/-- Key k ends the wait of FX0A at `s`: it is down; or, in the other WAIT_KEY_MODEs, it went down, or up, since the last
try of the same wait, at its first try no key (R163, D18, U13; log 35). -/
def EndsWait (s : State) (k : Nat) : Prop :=
  k < s.config.numKeys ∧
    match s.config.waitKeyMode with
    | .level => s.keyPressed k = true
    | .press => s.keyPressed k = true ∧ ∃ before, s.waiting = some before ∧ KeySet.down before k = false
    | .release => s.keyPressed k = false ∧ ∃ before, s.waiting = some before ∧ KeySet.down before k = true

/-- The state of a next-state answer, changed; the other answers stay. -/
def mapNext (f : State → State) : Result → Result
  | .next s => .next (f s)
  | .fault e => .fault e
  | .refused e => .refused e

end Sys2Proof.Machine
end

