-- ==== Sys2Proof/Certificates/Slice0/Obligations.lean ====
section
/-!
DEFINITION. The statements about the machine, from the numbered rules of spec/.
Where a statement names an instruction, its first clauses read the instruction from the word as the rule's Encoding and
Operands lines do, and the others say what executing it does.
`Frame regs pieces s t` says that `t` differs from `s` at most in the registers `regs` and the pieces `pieces`.
-/

open Sys2Proof Sys2Proof.Machine

/-! ## Encoding -/

/-- R70 to R75: an encoded instruction decodes to itself, every operand at every value, and leaves the bytes after it. -/
def Obligations.DecodeEncodeRoundTrip : Prop :=
  ∀ (c : Config) (i : Instr), i.wellFormed c = true →
    decode c (encode c i) = .ok i ∧ ∀ rest, decodeBytes c (encodeBytes c i ++ rest) = .ok (i, rest)

/-- R74, R75: what decodes is well formed and has that one encoding. -/
def Obligations.EncodeDecodeEveryWord : Prop :=
  ∀ (c : Config) (w : Word) (i : Instr), decode c w = .ok i → i.wellFormed c = true ∧ encode c i = w

/-- R76: the words that are no instruction are exactly those of its table. -/
def Obligations.IllegalWordsExactly : Prop :=
  ∀ (c : Config) (w : Word), (∃ r, decode c w = .error r) ↔
    (fieldOp w = 0x5 ∧ fieldN w ≠ 0) ∨
    (fieldOp w = 0x8 ∧ fieldN w ∈ ([0x8, 0x9, 0xA, 0xB, 0xC, 0xD, 0xF] : List (BitVec 4))) ∨
    (fieldOp w = 0x9 ∧ fieldN w ≠ 0) ∨
    (fieldOp w = 0xE ∧ fieldNN w ∉ ([0x9E, 0xA1] : List Byte)) ∨
    (fieldOp w = 0xF ∧
      fieldNN w ∉ ([0x07, 0x0A, 0x15, 0x18, 0x1E, 0x29, 0x33, 0x55, 0x65] : List Byte))

/-- 95_test_vectors.md, section 3, and the example of R110: words the spec writes out decode, at the default
configuration, to the instructions they stand for; 0xE19E, with X = 1, is made from the pattern EX9E of R75's table. -/
def Obligations.SpecWordsDecode : Prop :=
  decodeBytes {} [0x12, 0x34] = .ok (.jmp 0x234, []) ∧
  decode {} 0xD7A5 = .ok (.draw 0x7 0xA 0x5) ∧
  decode {} 0x8AB4 = .ok (.addReg 0xA 0xB) ∧
  decode {} 0x00E0 = .ok .cls ∧ decode {} 0x00EE = .ok .ret ∧ decode {} 0x00E1 = .ok (.sys 0x0E1) ∧
  decode {} 0xF10A = .ok (.ldK 0x1) ∧ decode {} 0xF155 = .ok (.stRegs 0x1) ∧
  decode {} 0xE19E = .ok (.skipKp 0x1) ∧ decode {} 0x332A = .ok (.skipEImm 0x3 0x2A)

/-! ## The step -/

/-- R10: while the run status is Running a step fetches the two bytes at pc, decodes and executes; on this model the
boundary of the timer agent and the host follows (log 5, log 6). -/
def Obligations.StepRunsDecodedInstruction : Prop :=
  ∀ (s : State) (i : Instr), s.safe → s.canFetch →
    decodeBytes s.config [s.mem.read s.pc.toNat, s.mem.read (s.pc.toNat + 1)] = .ok (i, []) →
    step s = thenBoundary (exec i s)

/-- R52, R54: the byte at the lower address is the most significant byte of the fetched word, also at an odd pc, unless
REQUIRE_EVEN_PC refuses it. -/
def Obligations.FetchIsBigEndian : Prop :=
  ∀ s : State, s.pc.toNat + 1 < s.config.memSize → (s.config.requireEvenPc = true → s.pc.toNat % 2 = 0) →
    ∃ w, s.fetchWord = .ok w ∧
      w.toNat = 256 * (s.mem.read s.pc.toNat).toNat + (s.mem.read (s.pc.toNat + 1)).toNat

/-- R51, R171 F1: a fetch whose second byte is past the last address ends the run, with no other state change and nothing
after it. The second clause is the model's choice: an odd pc where REQUIRE_EVEN_PC is true ends the run under a name of
the model's own (U17; log 28). -/
def Obligations.FetchPastEndFaults : Prop :=
  (∀ s : State, s.safe → s.config.memSize ≤ s.pc.toNat + 1 →
    step s = .next { s with status := .faulted (.fetchOutOfRange s.pc) }) ∧
  ∀ s : State, s.safe → s.pc.toNat + 1 < s.config.memSize → s.config.requireEvenPc = true → s.pc.toNat % 2 = 1 →
    step s = .next { s with status := .faulted (.oddFetch s.pc) }

/-- R76, R171 F2: a word that is no instruction ends the run, with no other state change and nothing after it. -/
def Obligations.IllegalWordEndsRun : Prop :=
  ∀ (s : State) (w : Word) (r : Reject), s.safe → s.fetchWord = .ok w → decode s.config w = .error r →
    step s = .next { s with status := .faulted (.illegalInstruction s.pc w) }

/-! ## System and control flow -/

/-- R100, R172: SYS, every word 0NNN but the words of CLS and RET, ends the run as Aborted(NNN), pc and everything else
unchanged, and no step follows. -/
def Obligations.SysAborts : Prop :=
  (∀ (c : Config) (w : Word), fieldOp w = 0x0 → w ≠ 0x00E0 → w ≠ c.retWord → decode c w = .ok (.sys (fieldNNN w))) ∧
  Config.retWord {} = 0x00EE ∧
  ∀ (nnn : BitVec 12) (s : State), ∃ t, exec (.sys nnn) s = .next t ∧
    t.status = .aborted nnn ∧ Frame [] [.status] s t ∧ ∀ u, step t ≠ .next u

/-- R101: RET loads pc with the newest stack entry and removes it; on an empty stack it raises StackUnderflow. Its word
is that of RET_OPCODE, 00EE at the default (C1). -/
def Obligations.RetPops : Prop :=
  decode {} 0x00EE = .ok .ret ∧ (∀ c : Config, c.retNNN ≠ 0x0E0 → decode c c.retWord = .ok .ret) ∧
  (∀ (s : State) (a : Addr) (rest : List Addr), s.stack = a :: rest →
    ∃ t, exec .ret s = .next t ∧ t.pc = a ∧ t.stack = rest ∧ Frame [] [.pc, .stack] s t) ∧
  ∀ s : State, s.stack = [] →
    exec .ret s = .next { s with status := .faulted (.stackUnderflow s.pc) }

/-- R102: JMP loads pc with the zero-extended NNN. -/
def Obligations.JmpLoadsPc : Prop :=
  (∀ (c : Config) (w : Word), fieldOp w = 0x1 → decode c w = .ok (.jmp (fieldNNN w))) ∧
  ∀ (nnn : BitVec 12) (s : State), ∃ t, exec (.jmp nnn) s = .next t ∧
    t.pc.toNat = nnn.toNat ∧ Frame [] [.pc] s t

/-- R103: CALL pushes pc + 2 and loads pc with NNN; on a full stack, of STACK_DEPTH entries, it raises StackOverflow. -/
def Obligations.CallPushesReturn : Prop :=
  (∀ (c : Config) (w : Word), fieldOp w = 0x2 → decode c w = .ok (.call (fieldNNN w))) ∧
  (∀ (nnn : BitVec 12) (s : State), s.stack.length < s.config.stackDepth →
    ∃ t, exec (.call nnn) s = .next t ∧ t.pc.toNat = nnn.toNat ∧
      (∃ a, t.stack = a :: s.stack ∧ a.toNat = (s.pc.toNat + 2) % s.addrMod) ∧ Frame [] [.pc, .stack] s t) ∧
  ∀ (nnn : BitVec 12) (s : State), s.config.stackDepth ≤ s.stack.length →
    exec (.call nnn) s = .next { s with status := .faulted (.stackOverflow s.pc) }

/-- R104: JMP_V0 loads pc with NNN + V0, not truncated to 12 bits where an address register has 16. -/
def Obligations.JmpV0Adds : Prop :=
  (∀ (c : Config) (w : Word), fieldOp w = 0xB → decode c w = .ok (.jmpV0 (fieldNNN w))) ∧
  ∀ (nnn : BitVec 12) (s : State), ∃ t, exec (.jmpV0 nnn) s = .next t ∧
    t.pc.toNat = (nnn.toNat + (s.reg 0x0).toNat) % s.addrMod ∧
    (s.config.addrWidth = .bits16 → t.pc.toNat = nnn.toNat + (s.reg 0x0).toNat) ∧ Frame [] [.pc] s t

/-- R101, R103: whatever happens in between, a RET that finds the stack as CALL left it returns after the CALL and
leaves the stack as it was before it. -/
def Obligations.CallThenRetReturns : Prop :=
  ∀ (nnn : BitVec 12) (s : State), s.stack.length < s.config.stackDepth →
    ∃ t, exec (.call nnn) s = .next t ∧
      ∀ u : State, u.stack = t.stack →
        ∃ r, exec .ret u = .next r ∧ PcPlus s r 2 ∧ r.stack = s.stack ∧ Frame [] [.pc, .stack] u r

/-! ## Skips -/

/-- R110, R111, R114: the immediate skips compare V[X] with NN, add 4 or 2 to pc, and change nothing else, whatever
bytes lie at the skipped address. -/
def Obligations.SkipImmediate : Prop :=
  (∀ (c : Config) (w : Word), fieldOp w = 0x3 → decode c w = .ok (.skipEImm (fieldX w) (fieldNN w))) ∧
  (∀ (c : Config) (w : Word), fieldOp w = 0x4 → decode c w = .ok (.skipNeImm (fieldX w) (fieldNN w))) ∧
  ∀ (x : RegIx) (nn : Byte) (s : State),
    (∃ t, exec (.skipEImm x nn) s = .next t ∧
      PcPlus s t (if s.reg x = nn then 4 else 2) ∧ Frame [] [.pc] s t) ∧
    (∃ t, exec (.skipNeImm x nn) s = .next t ∧
      PcPlus s t (if s.reg x = nn then 2 else 4) ∧ Frame [] [.pc] s t)

/-- R112, R113, R114: the register skips compare V[X] with V[Y], add 4 or 2 to pc, and change nothing else. -/
def Obligations.SkipRegister : Prop :=
  (∀ (c : Config) (w : Word), fieldOp w = 0x5 → fieldN w = 0x0 → decode c w = .ok (.skipEReg (fieldX w) (fieldY w))) ∧
  (∀ (c : Config) (w : Word), fieldOp w = 0x9 → fieldN w = 0x0 → decode c w = .ok (.skipNeReg (fieldX w) (fieldY w))) ∧
  ∀ (x y : RegIx) (s : State),
    (∃ t, exec (.skipEReg x y) s = .next t ∧
      PcPlus s t (if s.reg x = s.reg y then 4 else 2) ∧ Frame [] [.pc] s t) ∧
    (∃ t, exec (.skipNeReg x y) s = .next t ∧
      PcPlus s t (if s.reg x = s.reg y then 2 else 4) ∧ Frame [] [.pc] s t)

/-! ## Loads, logic, arithmetic, shifts, random -/

/-- R120, R122: LD_IMM and LD_REG write NN, or V[Y], to V[X]; nothing else but pc changes. -/
def Obligations.LoadImmediateAndRegister : Prop :=
  (∀ (c : Config) (w : Word), fieldOp w = 0x6 → decode c w = .ok (.ldImm (fieldX w) (fieldNN w))) ∧
  (∀ (c : Config) (w : Word), fieldOp w = 0x8 → fieldN w = 0x0 → decode c w = .ok (.ldReg (fieldX w) (fieldY w))) ∧
  (∀ (x : RegIx) (nn : Byte) (s : State), ∃ t, exec (.ldImm x nn) s = .next t ∧
    t.reg x = nn ∧ PcPlus s t 2 ∧ Frame [x] [.pc] s t) ∧
  ∀ (x y : RegIx) (s : State), ∃ t, exec (.ldReg x y) s = .next t ∧
    t.reg x = s.reg y ∧ PcPlus s t 2 ∧ Frame [x] [.pc] s t

/-- R121: ADD_IMM adds NN modulo 256 and records no carry: VF changes only when it is V[X] itself. -/
def Obligations.AddImmediateWraps : Prop :=
  (∀ (c : Config) (w : Word), fieldOp w = 0x7 → decode c w = .ok (.addImm (fieldX w) (fieldNN w))) ∧
  ∀ (x : RegIx) (nn : Byte) (s : State), ∃ t, exec (.addImm x nn) s = .next t ∧
    (t.reg x).toNat = ((s.reg x).toNat + nn.toNat) % 256 ∧ PcPlus s t 2 ∧ Frame [x] [.pc] s t

/-- R123, R124, R125: OR, AND and XOR act on each of the eight bits separately and leave VF as it was, unless it is
V[X] itself. -/
def Obligations.BitwiseOperations : Prop :=
  (∀ (c : Config) (w : Word), fieldOp w = 0x8 → fieldN w = 0x1 → decode c w = .ok (.or (fieldX w) (fieldY w))) ∧
  (∀ (c : Config) (w : Word), fieldOp w = 0x8 → fieldN w = 0x2 → decode c w = .ok (.and (fieldX w) (fieldY w))) ∧
  (∀ (c : Config) (w : Word), fieldOp w = 0x8 → fieldN w = 0x3 → decode c w = .ok (.xor (fieldX w) (fieldY w))) ∧
  ∀ (x y : RegIx) (s : State),
    (∃ t, exec (.or x y) s = .next t ∧
      (∀ k, k < 8 → (t.reg x).getLsbD k = ((s.reg x).getLsbD k || (s.reg y).getLsbD k)) ∧
      PcPlus s t 2 ∧ Frame [x] [.pc] s t) ∧
    (∃ t, exec (.and x y) s = .next t ∧
      (∀ k, k < 8 → (t.reg x).getLsbD k = ((s.reg x).getLsbD k && (s.reg y).getLsbD k)) ∧
      PcPlus s t 2 ∧ Frame [x] [.pc] s t) ∧
    (∃ t, exec (.xor x y) s = .next t ∧
      (∀ k, k < 8 → (t.reg x).getLsbD k = ((s.reg x).getLsbD k ^^ (s.reg y).getLsbD k)) ∧
      PcPlus s t 2 ∧ Frame [x] [.pc] s t)

/-- R126, R9: ADD_REG writes the sum modulo 256 to V[X] and the carry to VF; with X = 0xF both writes go to VF and
VF_WRITE_ORDER says which stands, the sum at the default. -/
def Obligations.AddRegSumAndCarry : Prop :=
  (∀ (c : Config) (w : Word), fieldOp w = 0x8 → fieldN w = 0x4 → decode c w = .ok (.addReg (fieldX w) (fieldY w))) ∧
  ∀ (x y : RegIx) (s : State), ∃ t, exec (.addReg x y) s = .next t ∧
    (x ≠ 0xF ∨ s.config.vfWriteOrder = .flagThenResult →
      (t.reg x).toNat = ((s.reg x).toNat + (s.reg y).toNat) % 256) ∧
    (x ≠ 0xF ∨ s.config.vfWriteOrder = .resultThenFlag →
      (t.reg 0xF).toNat = ((s.reg x).toNat + (s.reg y).toNat) / 256) ∧
    PcPlus s t 2 ∧ Frame [x, 0xF] [.pc] s t

/-- R127, R9: SUB writes V[X] - V[Y] modulo 256 to V[X], and 1 to VF exactly when there is no borrow, equal operands
included where SUB_FLAG_ON_EQUAL is 1; with X = 0xF VF_WRITE_ORDER says which write stands, the difference at the
default. -/
def Obligations.SubDifferenceAndBorrow : Prop :=
  (∀ (c : Config) (w : Word), fieldOp w = 0x8 → fieldN w = 0x5 → decode c w = .ok (.sub (fieldX w) (fieldY w))) ∧
  ∀ (x y : RegIx) (s : State), ∃ t, exec (.sub x y) s = .next t ∧
    (x ≠ 0xF ∨ s.config.vfWriteOrder = .flagThenResult →
      (t.reg x).toNat = ((s.reg x).toNat + 256 - (s.reg y).toNat) % 256) ∧
    (x ≠ 0xF ∨ s.config.vfWriteOrder = .resultThenFlag →
      t.reg 0xF = if (s.reg x).toNat > (s.reg y).toNat ∨
        ((s.reg x).toNat = (s.reg y).toNat ∧ s.config.subFlagOnEqual = true) then 1 else 0) ∧
    PcPlus s t 2 ∧ Frame [x, 0xF] [.pc] s t

/-- R129, R9: SUBN writes V[Y] - V[X] modulo 256 to V[X], and 1 to VF exactly when there is no borrow, equal operands
included where SUB_FLAG_ON_EQUAL is 1; with X = 0xF VF_WRITE_ORDER says which write stands, the difference at the
default. -/
def Obligations.SubnDifferenceAndBorrow : Prop :=
  (∀ (c : Config) (w : Word), fieldOp w = 0x8 → fieldN w = 0x7 → decode c w = .ok (.subn (fieldX w) (fieldY w))) ∧
  ∀ (x y : RegIx) (s : State), ∃ t, exec (.subn x y) s = .next t ∧
    (x ≠ 0xF ∨ s.config.vfWriteOrder = .flagThenResult →
      (t.reg x).toNat = ((s.reg y).toNat + 256 - (s.reg x).toNat) % 256) ∧
    (x ≠ 0xF ∨ s.config.vfWriteOrder = .resultThenFlag →
      t.reg 0xF = if (s.reg y).toNat > (s.reg x).toNat ∨
        ((s.reg y).toNat = (s.reg x).toNat ∧ s.config.subFlagOnEqual = true) then 1 else 0) ∧
    PcPlus s t 2 ∧ Frame [x, 0xF] [.pc] s t

/-- R128, R9: SHR writes half the source, rounded down, to V[X] and the bit shifted out to VF; the source is V[Y],
or V[X] where SHIFT_SOURCE says so (U1); with X = 0xF VF_WRITE_ORDER says which write stands, the result at the
default. -/
def Obligations.ShrResultAndBit : Prop :=
  (∀ (c : Config) (w : Word), fieldOp w = 0x8 → fieldN w = 0x6 → decode c w = .ok (.shr (fieldX w) (fieldY w))) ∧
  ∀ (x y : RegIx) (s : State), ∃ t, exec (.shr x y) s = .next t ∧
    (x ≠ 0xF ∨ s.config.vfWriteOrder = .flagThenResult →
      (t.reg x).toNat = (if s.config.shiftSource = .vx then s.reg x else s.reg y).toNat / 2) ∧
    (x ≠ 0xF ∨ s.config.vfWriteOrder = .resultThenFlag →
      (t.reg 0xF).toNat = (if s.config.shiftSource = .vx then s.reg x else s.reg y).toNat % 2) ∧
    PcPlus s t 2 ∧ Frame [x, 0xF] [.pc] s t

/-- R130, R9: SHL writes twice the source modulo 256 to V[X] and the bit shifted out to VF; the source is V[Y],
or V[X] where SHIFT_SOURCE says so (U1); with X = 0xF VF_WRITE_ORDER says which write stands, the result at the
default. -/
def Obligations.ShlResultAndBit : Prop :=
  (∀ (c : Config) (w : Word), fieldOp w = 0x8 → fieldN w = 0xE → decode c w = .ok (.shl (fieldX w) (fieldY w))) ∧
  ∀ (x y : RegIx) (s : State), ∃ t, exec (.shl x y) s = .next t ∧
    (x ≠ 0xF ∨ s.config.vfWriteOrder = .flagThenResult →
      (t.reg x).toNat = 2 * (if s.config.shiftSource = .vx then s.reg x else s.reg y).toNat % 256) ∧
    (x ≠ 0xF ∨ s.config.vfWriteOrder = .resultThenFlag →
      (t.reg 0xF).toNat = (if s.config.shiftSource = .vx then s.reg x else s.reg y).toNat / 128) ∧
    PcPlus s t 2 ∧ Frame [x, 0xF] [.pc] s t

/-- R131: RAND writes a random byte masked by NN; the byte is the model's free value (log 7), so this holds for every
byte, and what it says of V[X] alone is that no bit outside NN is set. -/
def Obligations.RandMasksFreeByte : Prop :=
  (∀ (c : Config) (w : Word), fieldOp w = 0xC → decode c w = .ok (.rand (fieldX w) (fieldNN w))) ∧
  ∀ (x : RegIx) (nn : Byte) (s : State), ∃ t, exec (.rand x nn) s = .next t ∧
    t.reg x = Config.freeByte s.draws &&& nn ∧ t.reg x &&& ~~~nn = 0 ∧
    t.draws = s.draws + 1 ∧ PcPlus s t 2 ∧ Frame [x] [.pc, .draws] s t

/-! ## Index register and memory -/

/-- R140: ST_I loads I with the zero-extended NNN. -/
def Obligations.StISetsIndex : Prop :=
  (∀ (c : Config) (w : Word), fieldOp w = 0xA → decode c w = .ok (.stI (fieldNNN w))) ∧
  ∀ (nnn : BitVec 12) (s : State), ∃ t, exec (.stI nnn) s = .next t ∧
    t.i.toNat = nnn.toNat ∧ PcPlus s t 2 ∧ Frame [] [.i, .pc] s t

/-- R141: ADD_I adds V[X], as it was before, to I modulo 2^ADDR_REG_WIDTH and sets VF when the whole sum passes 0xFFF. -/
def Obligations.AddISumAndRangeFlag : Prop :=
  (∀ (c : Config) (w : Word), fieldOp w = 0xF → fieldNN w = 0x1E → decode c w = .ok (.addI (fieldX w))) ∧
  ∀ (x : RegIx) (s : State), ∃ t, exec (.addI x) s = .next t ∧
    t.i.toNat = (s.i.toNat + (s.reg x).toNat) % s.addrMod ∧
    t.reg 0xF = (if s.i.toNat + (s.reg x).toNat > 0xFFF then 1 else 0) ∧
    PcPlus s t 2 ∧ Frame [0xF] [.i, .pc] s t

/-- R142: LD_F loads I with the address of the glyph of a hexadecimal digit, five bytes a glyph from FONT_BASE (0x000 at
the default: log 20); above 0xF it raises BadFontDigit. -/
def Obligations.LdFGlyphAddress : Prop :=
  (∀ (c : Config) (w : Word), fieldOp w = 0xF → fieldNN w = 0x29 → decode c w = .ok (.ldF (fieldX w))) ∧
  (∀ (x : RegIx) (s : State), (s.reg x).toNat ≤ 0xF → ∃ t, exec (.ldF x) s = .next t ∧
    t.i.toNat = (s.config.fontBase + 5 * (s.reg x).toNat) % s.addrMod ∧ PcPlus s t 2 ∧ Frame [] [.i, .pc] s t) ∧
  ∀ (x : RegIx) (s : State), 0xF < (s.reg x).toNat →
    exec (.ldF x) s = .next { s with status := .faulted (.badFontDigit s.pc (s.reg x)) }

/-- R143: LD_B writes the hundreds, tens and units digits of V[X] at I, I + 1, I + 2 and changes no other byte; when
I + 2 passes the last address it raises AddressOutOfRange and writes nothing. -/
def Obligations.LdBDigits : Prop :=
  (∀ (c : Config) (w : Word), fieldOp w = 0xF → fieldNN w = 0x33 → decode c w = .ok (.ldB (fieldX w))) ∧
  (∀ (x : RegIx) (s : State), s.mem.wf → s.base + 2 < s.config.memSize → ∃ t, exec (.ldB x) s = .next t ∧
    (t.mem.read s.base).toNat = (s.reg x).toNat / 100 ∧
    (t.mem.read (s.base + 1)).toNat = (s.reg x).toNat / 10 % 10 ∧
    (t.mem.read (s.base + 2)).toNat = (s.reg x).toNat % 10 ∧
    (∀ a, a < s.base ∨ s.base + 2 < a → t.mem.read a = s.mem.read a) ∧
    PcPlus s t 2 ∧ Frame [] [.mem, .pc] s t) ∧
  ∀ (x : RegIx) (s : State), s.config.memSize ≤ s.base + 2 →
    exec (.ldB x) s = .next { s with status := .faulted (.addressOutOfRange s.pc (max s.base s.config.memSize)) }

/-- R144: ST_REGS writes V0 to V[X] at ascending addresses from I, changes no other byte, then adds X + 1 to I; when
I + X passes the last address it raises AddressOutOfRange and changes nothing. -/
def Obligations.StRegsStores : Prop :=
  (∀ (c : Config) (w : Word), fieldOp w = 0xF → fieldNN w = 0x55 → decode c w = .ok (.stRegs (fieldX w))) ∧
  (∀ (x : RegIx) (s : State), s.mem.wf → s.base + x.toNat < s.config.memSize → ∃ t, exec (.stRegs x) s = .next t ∧
    (∀ r : RegIx, r.toNat ≤ x.toNat → t.mem.read (s.base + r.toNat) = s.reg r) ∧
    (∀ a, a < s.base ∨ s.base + x.toNat < a → t.mem.read a = s.mem.read a) ∧
    t.i.toNat = (s.i.toNat + x.toNat + 1) % s.addrMod ∧
    PcPlus s t 2 ∧ Frame [] [.mem, .i, .pc] s t) ∧
  ∀ (x : RegIx) (s : State), s.config.memSize ≤ s.base + x.toNat →
    exec (.stRegs x) s = .next { s with status := .faulted (.addressOutOfRange s.pc (max s.base s.config.memSize)) }

/-- R145: LD_REGS loads V0 to V[X] from ascending addresses from I, keeps the registers above V[X] and all of memory,
then adds X + 1 to I; when I + X passes the last address it raises AddressOutOfRange and changes nothing. -/
def Obligations.LdRegsLoads : Prop :=
  (∀ (c : Config) (w : Word), fieldOp w = 0xF → fieldNN w = 0x65 → decode c w = .ok (.ldRegs (fieldX w))) ∧
  (∀ (x : RegIx) (s : State), s.base + x.toNat < s.config.memSize → ∃ t, exec (.ldRegs x) s = .next t ∧
    (∀ r : RegIx, t.reg r = if r.toNat ≤ x.toNat then s.mem.read (s.base + r.toNat) else s.reg r) ∧
    t.i.toNat = (s.i.toNat + x.toNat + 1) % s.addrMod ∧
    PcPlus s t 2 ∧ ∀ p, p ∉ [Piece.i, Piece.pc] → p.same s t) ∧
  ∀ (x : RegIx) (s : State), s.config.memSize ≤ s.base + x.toNat →
    exec (.ldRegs x) s = .next { s with status := .faulted (.addressOutOfRange s.pc (max s.base s.config.memSize)) }

/-- R144, R145: what ST_REGS stored, LD_REGS from the same address loads back, whatever the registers hold by then. -/
def Obligations.StoreThenLoadRegisters : Prop :=
  ∀ (x : RegIx) (s : State), s.mem.wf → s.base + x.toNat < s.config.memSize →
    ∃ t, exec (.stRegs x) s = .next t ∧
      ∀ u : State, u.config = s.config → u.mem = t.mem → u.i = s.i →
        ∃ r, exec (.ldRegs x) u = .next r ∧ r.i = t.i ∧
          ∀ k : RegIx, r.reg k = if k.toNat ≤ x.toNat then s.reg k else u.reg k

/-! ## Display -/

/-- R150: CLS clears every cell and changes nothing else but pc; VF stays. -/
def Obligations.ClsClears : Prop :=
  (∀ c : Config, decode c 0x00E0 = .ok .cls) ∧
  ∀ s : State, ∃ t, exec .cls s = .next t ∧
    (∀ r c, t.screen.cell r c = false) ∧ t.shaped ∧ PcPlus s t 2 ∧ Frame [] [.screen, .pc] s t

/-- R151, R152: DRAW flips exactly the cells on the screen under a sprite bit at 1, and VF becomes 1 exactly when one of
them was on; all N sprite bytes must lie in memory, else it raises AddressOutOfRange and nothing changes. -/
def Obligations.DrawFlipsCells : Prop :=
  (∀ (c : Config) (w : Word), fieldOp w = 0xD → decode c w = .ok (.draw (fieldX w) (fieldY w) (fieldN w))) ∧
  (∀ (x y : RegIx) (n : BitVec 4) (s : State), s.shaped → (n = 0 ∨ s.base + n.toNat - 1 < s.config.memSize) →
    ∃ t, exec (.draw x y n) s = .next t ∧
      (∀ r c, DrawnAt s x y n r c → t.screen.cell r c = !s.screen.cell r c) ∧
      (∀ r c, ¬ DrawnAt s x y n r c → t.screen.cell r c = s.screen.cell r c) ∧
      ((∃ r c, DrawnAt s x y n r c ∧ s.screen.cell r c = true) → t.reg 0xF = 1) ∧
      ((∀ r c, DrawnAt s x y n r c → s.screen.cell r c = false) → t.reg 0xF = 0) ∧
      t.shaped ∧ PcPlus s t 2 ∧ Frame [0xF] [.screen, .pc] s t) ∧
  ∀ (x y : RegIx) (n : BitVec 4) (s : State), n ≠ 0 → s.config.memSize ≤ s.base + n.toNat - 1 →
    exec (.draw x y n) s = .next { s with status := .faulted (.addressOutOfRange s.pc (max s.base s.config.memSize)) }

/-- R151: drawing the same sprite twice at the same place restores the screen, and the second draw sets VF exactly when
the sprite has a bit set on the screen and the first draw turned one of those cells on (the pseudocode, log 22). -/
def Obligations.DrawTwiceRestores : Prop :=
  ∀ (x y : RegIx) (n : BitVec 4) (s : State), s.shaped → (n = 0 ∨ s.base + n.toNat - 1 < s.config.memSize) →
    ∃ t, exec (.draw x y n) s = .next t ∧
      ∀ u : State, u.config = s.config → u.screen = t.screen → u.i = s.i → (∀ a, u.mem.read a = s.mem.read a) →
        u.reg x = s.reg x → u.reg y = s.reg y →
        ∃ r, exec (.draw x y n) u = .next r ∧ r.screen = s.screen ∧
          ((∃ a c, DrawnAt s x y n a c ∧ s.screen.cell a c = false) → r.reg 0xF = 1) ∧
          ((∀ a c, DrawnAt s x y n a c → s.screen.cell a c = true) → r.reg 0xF = 0)

/-! ## Keypad and timers -/

/-- R160, R161, R114: the key skips test the key whose number V[X] holds; where no key has that
number (above 0xF at the default) they raise BadKeyIndex. -/
def Obligations.SkipOnKey : Prop :=
  (∀ (c : Config) (w : Word), fieldOp w = 0xE → fieldNN w = 0x9E → decode c w = .ok (.skipKp (fieldX w))) ∧
  (∀ (c : Config) (w : Word), fieldOp w = 0xE → fieldNN w = 0xA1 → decode c w = .ok (.skipKnp (fieldX w))) ∧
  (∀ (x : RegIx) (s : State), (s.reg x).toNat < s.config.numKeys →
    (∃ t, exec (.skipKp x) s = .next t ∧
      PcPlus s t (if s.keyPressed (s.reg x).toNat then 4 else 2) ∧ Frame [] [.pc] s t) ∧
    (∃ t, exec (.skipKnp x) s = .next t ∧
      PcPlus s t (if s.keyPressed (s.reg x).toNat then 2 else 4) ∧ Frame [] [.pc] s t)) ∧
  ∀ (x : RegIx) (s : State), s.config.numKeys ≤ (s.reg x).toNat →
    exec (.skipKp x) s = .next { s with status := .faulted (.badKeyIndex s.pc (s.reg x)) } ∧
    exec (.skipKnp x) s = .next { s with status := .faulted (.badKeyIndex s.pc (s.reg x)) }

/-- R162: LD_DT copies DT, as it stands at this step, to V[X]; DT itself stays. -/
def Obligations.LdDtReadsTimer : Prop :=
  (∀ (c : Config) (w : Word), fieldOp w = 0xF → fieldNN w = 0x07 → decode c w = .ok (.ldDt (fieldX w))) ∧
  ∀ (x : RegIx) (s : State), ∃ t, exec (.ldDt x) s = .next t ∧
    t.reg x = s.dt ∧ PcPlus s t 2 ∧ Frame [x] [.pc] s t

/-- R163: at the default WAIT_KEY_MODE, while no key is down LD_K is held and changes nothing (a next state, log 9), and
when some key is down V[X] receives the number of a key that is down (a free choice among several, log 8) and pc
advances. In every mode it is held while no key ends the wait, and else V[X] receives the number of one that does; the
other two modes, a press and a release, are the model's reading of names the spec does not describe (U13; log 35). -/
def Obligations.LdKWaitsForKey : Prop :=
  (∀ (c : Config) (w : Word), fieldOp w = 0xF → fieldNN w = 0x0A → decode c w = .ok (.ldK (fieldX w))) ∧
  (∀ (x : RegIx) (s : State), s.config.waitKeyMode = .level → (∀ k, k < s.config.numKeys → s.keyPressed k = false) →
    exec (.ldK x) s = .next s) ∧
  (∀ (x : RegIx) (s : State), s.config.waitKeyMode = .level → (∃ k, k < s.config.numKeys ∧ s.keyPressed k = true) →
    ∃ t, exec (.ldK x) s = .next t ∧
      (∃ k, k < s.config.numKeys ∧ s.keyPressed k = true ∧ (t.reg x).toNat = k % 256) ∧
      PcPlus s t 2 ∧ Frame [x] [.pc, .draws] s t) ∧
  (∀ (x : RegIx) (s : State), s.config.waitKeyMode ≠ .level → (∀ k, ¬ EndsWait s k) →
    exec (.ldK x) s = .next { s with waiting := some s.keys }) ∧
  ∀ (x : RegIx) (s : State), s.config.waitKeyMode ≠ .level → (∃ k, EndsWait s k) →
    ∃ t, exec (.ldK x) s = .next t ∧ (∃ k, EndsWait s k ∧ (t.reg x).toNat = k % 256) ∧
      t.waiting = none ∧ PcPlus s t 2 ∧ Frame [x] [.pc, .draws, .waiting] s t

/-- R164, R165: ST_DT and ST_ST write V[X] to DT, or ST, and change nothing else but pc; after ST_ST the tone sounds
exactly when the value written is not 0 (R179). -/
def Obligations.SetTimers : Prop :=
  (∀ (c : Config) (w : Word), fieldOp w = 0xF → fieldNN w = 0x15 → decode c w = .ok (.stDt (fieldX w))) ∧
  (∀ (c : Config) (w : Word), fieldOp w = 0xF → fieldNN w = 0x18 → decode c w = .ok (.stSt (fieldX w))) ∧
  ∀ (x : RegIx) (s : State),
    (∃ t, exec (.stDt x) s = .next t ∧ t.dt = s.reg x ∧ PcPlus s t 2 ∧ Frame [] [.dt, .pc] s t) ∧
    (∃ t, exec (.stSt x) s = .next t ∧ t.st = s.reg x ∧ (t.toneSounds = true ↔ s.reg x ≠ 0) ∧
      PcPlus s t 2 ∧ Frame [] [.st, .pc] s t)

/-- R178, R179: n ticks take n from each timer, which stops at 0, and touch nothing else; the tone sounds after them
exactly when ST had more than n (with n = 0, in any state exactly while ST is not 0). And where the timer agent is fair
(R178's assumption, a premise on the run: log 6) DT, once ST_DT no longer writes it, in the end becomes 0 (R162). -/
def Obligations.TicksCountDownToZero : Prop :=
  (∀ (n : Nat) (s : State), (s.ticks n).dt.toNat = s.dt.toNat - n ∧ (s.ticks n).st.toNat = s.st.toNat - n ∧
    ((s.ticks n).toneSounds = true ↔ n < s.st.toNat) ∧ Frame [] [.dt, .st] s (s.ticks n)) ∧
  ∀ (r : Nat → State) (n : Nat), IsRun r → TimerFair r → NeverSetsDelay r n → ∃ m, n ≤ m ∧ (r m).dt = 0

/-- R162, R178 (V-TICK-3): after ST_DT and n ticks, LD_DT reads the value written less n, and 0 at the least. -/
def Obligations.DelayReadAfterTicks : Prop :=
  ∀ (x y : RegIx) (n : Nat) (s : State), ∃ t, exec (.stDt x) s = .next t ∧
    ∃ u, exec (.ldDt y) (t.ticks n) = .next u ∧ (u.reg y).toNat = (s.reg x).toNat - n

/-- R178, R182: between two processor steps the timer agent counts the timers down and the host sets the key set;
registers, pc, I, stack, memory, screen and status stay. Two clauses are the model's choice: that the schedule says
what happens where it has an entry (log 5, log 6, log 29), and that once the run is over nothing happens at all, of
which R178 says only that such ticks are not observable (log 6). -/
def Obligations.BoundaryTouchesTimersAndKeys : Prop :=
  (∀ s : State, s.safe → Frame [] [.dt, .st, .keys, .schedule, .turns] s s.boundary ∧
    s.boundary.dt.toNat ≤ s.dt.toNat ∧ s.boundary.st.toNat ≤ s.st.toNat) ∧
  (∀ (s : State) (m : Moment) (rest : List Moment), s.safe → s.schedule = m :: rest →
    s.boundary.dt.toNat = s.dt.toNat - m.ticks ∧ s.boundary.st.toNat = s.st.toNat - m.ticks ∧
    s.boundary.keys = m.keys ∧ s.boundary.schedule = rest) ∧
  ∀ s : State, ¬ s.safe → s.boundary = s

/-! ## The whole machine -/

/-- R170, R172, R174: while the status is Running every step has a next state: the run goes on, or it is over as Aborted
or Faulted, and then every other piece of state is exactly as before the step. Two things are the model's choice: that
a held LD_K, of which R163 and R170 (d) say that no step is enabled, has a next state (log 9), and that a raise or an
abort is a next state with that status (log 10). -/
def Obligations.StepHasNextState : Prop :=
  ∀ s : State, s.safe → ∃ t, step s = .next t ∧
    (t.safe ∨ (∃ nnn, t = { s with status := .aborted nnn }) ∨ ∃ f, t = { s with status := .faulted f })

/-- R33, R170: Aborted and Faulted are never left: no number of steps from there has a next state. -/
def Obligations.EndedRunNeverResumes : Prop :=
  ∀ (s : State) (k : Nat) (t : State), ¬ s.safe → Host.Core.run core (k + 1) s ≠ .next t

/-- R171, R173: a step raises a fault only where the table lists it, with the information it lists; fetch comes before
decode and decode before execution. The second disjunct is the model's own fault, which takes REQUIRE_EVEN_PC (log 28). -/
def Obligations.FaultsOnlyWhereListed : Prop :=
  ∀ (s t : State) (f : RunFault), step s = .next t → t.status = .faulted f →
    (f = .fetchOutOfRange s.pc ∧ s.config.memSize ≤ s.pc.toNat + 1) ∨
    (f = .oddFetch s.pc ∧ s.config.requireEvenPc = true ∧ s.pc.toNat % 2 = 1) ∨
    ∃ w, s.fetchWord = .ok w ∧
      ((f = .illegalInstruction s.pc w ∧ ∃ r, decode s.config w = .error r) ∨
        ∃ i, decode s.config w = .ok i ∧
          ((f = .stackOverflow s.pc ∧ s.stack.length ≥ s.config.stackDepth ∧ ∃ nnn, i = .call nnn) ∨
            (f = .stackUnderflow s.pc ∧ s.stack = [] ∧ i = .ret) ∨
            (∃ x, f = .badKeyIndex s.pc (s.reg x) ∧ (s.reg x).toNat ≥ s.config.numKeys ∧
              (i = .skipKp x ∨ i = .skipKnp x)) ∨
            (∃ x, f = .badFontDigit s.pc (s.reg x) ∧ (s.reg x).toNat > 0xF ∧ i = .ldF x) ∨
            (f = .addressOutOfRange s.pc (max s.i.toNat s.config.memSize) ∧
              ((∃ x y n, i = .draw x y n ∧ n ≠ 0 ∧ s.i.toNat + n.toNat - 1 ≥ s.config.memSize) ∨
                (∃ x, i = .ldB x ∧ s.i.toNat + 2 ≥ s.config.memSize) ∨
                (∃ x, (i = .stRegs x ∨ i = .ldRegs x) ∧ s.i.toNat + x.toNat ≥ s.config.memSize)))))

/-- R21: VF changes only by the seven instructions that write it as a flag, or as the ordinary destination V[X] (X = 0xF)
of an instruction that writes V[X]. -/
def Obligations.FlagWriters : Prop :=
  ∀ (i : Instr) (s t : State), exec i s = .next t → t.reg 0xF ≠ s.reg 0xF →
    (∃ x y, i = .addReg x y ∨ i = .sub x y ∨ i = .shr x y ∨ i = .subn x y ∨ i = .shl x y) ∨
    (∃ x y n, i = .draw x y n) ∨ (∃ x, i = .addI x) ∨
    (∃ nn, i = .ldImm 0xF nn ∨ i = .addImm 0xF nn ∨ i = .rand 0xF nn) ∨
    (∃ y, i = .ldReg 0xF y ∨ i = .or 0xF y ∨ i = .and 0xF y ∨ i = .xor 0xF y) ∨
    i = .ldDt 0xF ∨ i = .ldK 0xF ∨ i = .ldRegs 0xF

/-- R55, R62: no instruction but LD_B and ST_REGS changes a byte of memory. -/
def Obligations.MemoryWriters : Prop :=
  ∀ (i : Instr) (s t : State), exec i s = .next t → (∃ a, t.mem.read a ≠ s.mem.read a) →
    ∃ x, i = .ldB x ∨ i = .stRegs x

/-- R29, R180: no instruction but CLS and DRAW changes the screen. -/
def Obligations.ScreenWriters : Prop :=
  ∀ (i : Instr) (s t : State), exec i s = .next t → t.screen ≠ s.screen →
    i = .cls ∨ ∃ x y n, i = .draw x y n

/-- R24 to R27, R5: only the listed instructions write I, the stack, DT or ST, none touches the key set, and no step
changes the configuration, which is fixed for a machine. -/
def Obligations.SpecialRegisterWriters : Prop :=
  (∀ (i : Instr) (s t : State), exec i s = .next t →
    (t.i ≠ s.i → (∃ nnn, i = .stI nnn) ∨ ∃ x, i = .addI x ∨ i = .ldF x ∨ i = .stRegs x ∨ i = .ldRegs x) ∧
    (t.stack ≠ s.stack → i = .ret ∨ ∃ nnn, i = .call nnn) ∧
    (t.dt ≠ s.dt → ∃ x, i = .stDt x) ∧ (t.st ≠ s.st → ∃ x, i = .stSt x) ∧ t.keys = s.keys) ∧
  ∀ s t : State, step s = .next t → t.config = s.config

/-- R23, R176: nothing diverts pc from pc + 2 but the five instructions that load it or end the run, the six skips, a
held LD_K and a fault; a skip adds 4, and SYS, a held LD_K and a fault leave pc alone. -/
def Obligations.PcDiverters : Prop :=
  ∀ (i : Instr) (s t : State), s.safe → exec i s = .next t →
    PcPlus s t 2 ∨
    (t.pc = s.pc ∧ (¬ t.safe ∨ ∃ x, i = .ldK x)) ∨
    (PcPlus s t 4 ∧ ((∃ x nn, i = .skipEImm x nn ∨ i = .skipNeImm x nn) ∨
      (∃ x y, i = .skipEReg x y ∨ i = .skipNeReg x y) ∨ ∃ x, i = .skipKp x ∨ i = .skipKnp x)) ∨
    i = .ret ∨ ∃ nnn, i = .jmp nnn ∨ i = .call nnn ∨ i = .jmpV0 nnn

/-- R30: the key set is read by SKIP_KP, SKIP_KNP and LD_K only: with another key set any other instruction does the
same, the key set itself apart. -/
def Obligations.KeysSeenByThreeInstructions : Prop :=
  ∀ (i : Instr) (s : State) (ks : KeySet),
    (∀ x, i ≠ .skipKp x ∧ i ≠ .skipKnp x ∧ i ≠ .ldK x) →
    exec i { s with keys := ks } = mapNext (fun t => { t with keys := ks }) (exec i s)

/-- R27: no instruction reads ST: with another value in it every instruction does the same, ST itself apart, and ST_ST
leaves the same state from both. -/
def Obligations.SoundTimerNeverRead : Prop :=
  (∀ (i : Instr) (s : State) (b : Byte), (∀ x, i ≠ .stSt x) →
    exec i { s with st := b } = mapNext (fun t => { t with st := b }) (exec i s)) ∧
  ∀ (x : RegIx) (s : State) (b : Byte), exec (.stSt x) { s with st := b } = exec (.stSt x) s

/-- R60: a byte stored by ST_REGS is seen by the very next fetch that reads its address: where the stored range covers
the two bytes at the next pc, the next word is made of the registers stored there. -/
def Obligations.StoredBytesAreFetched : Prop :=
  ∀ (x k : RegIx) (s : State), s.mem.wf → s.base + x.toNat < s.config.memSize → k.toNat < x.toNat →
    s.base + k.toNat = (s.pc.toNat + 2) % s.addrMod → s.oddRefused = false →
    ∃ t, exec (.stRegs x) s = .next t ∧ t.fetchWord = .ok (wordOfBytes (s.reg k) (s.reg (k + 1)))

/-- Every step keeps the invariant: memory in canonical form, the stack within its depth and holding addresses after
fetchable CALLs (R25, R103), pc at most 0x10FE at the default (R23), the screen in its shape (R29),
FONT_BASE within its bound (R56). -/
def Obligations.InvariantKeptByStep : Prop :=
  ∀ s t : State, s.Inv → step s = .next t → t.Inv

/-- The invariant holds at reset. -/
def Obligations.InvariantAtReset : Prop := State.reset.Inv

/-- The invariant holds in every launch state (R190). -/
def Obligations.InvariantAtLaunch : Prop :=
  ∀ (p : Launch) (s : State), State.launch p = some s → s.Inv

/-- R190: the launch state holds the program from PROGRAM_BASE, the font from FONT_BASE, every byte of it below 0x512
(R56), the launch parameters elsewhere, pc = PROGRAM_BASE, an empty stack, the status Running and the configuration it was
launched with. A launch whose program does not fit, or that puts program and font one over the other, has no launch state
(U18). Five things are the model's choice: that INIT is given as lists of cells (log 31), that memory reads 0 and the
screen is off where they name no cell (log 31, log 3), that a launch whose font does not fit in memory or passes 0x512
has no launch state either (log 31), that an empty program strictly inside the font's range counts as overlapping
(log 31), and that a narrower address register keeps the low bits of its launch value (log 16). At the default
configuration the programs that fit are those of at most 3584 bytes. -/
def Obligations.LaunchBuildsState : Prop :=
  (∀ p : Launch, p.fits → (∀ c ∈ p.mem, c.1 < p.config.memSize) → (p.mem.map Prod.fst).Nodup →
    ∃ s, State.launch p = some s ∧
      (∀ k, (h : k < p.program.length) → s.mem.read (p.config.programBase + k) = p.program[k]) ∧
      (∀ k, (h : k < 80) → s.mem.read (p.config.fontBase + k) = p.config.font[k]) ∧
      (∀ k, k < 80 → p.config.fontBase + k < 0x512) ∧
      (∀ a, a < p.config.memSize → (a < p.config.fontBase ∨ p.config.fontBase + 80 ≤ a) →
        (a < p.config.programBase ∨ p.config.programBase + p.program.length ≤ a) →
        (∀ b, (a, b) ∈ p.mem → s.mem.read a = b) ∧ ((∀ c ∈ p.mem, c.1 ≠ a) → s.mem.read a = 0)) ∧
      (∀ r c, s.screen.cell r c = true ↔ r < p.config.screenH ∧ c < p.config.screenW ∧ (r, c) ∈ p.lit) ∧
      s.v = p.v ∧ s.i.toNat = p.i.toNat % s.addrMod ∧ s.dt = p.dt ∧ s.st = p.st ∧ s.keys = p.keys ∧
      s.stack = [] ∧ s.pc.toNat = p.config.programBase % s.addrMod ∧ s.status = .running ∧ s.config = p.config) ∧
  (∀ p : Launch, ¬ p.fits → State.launch p = none) ∧
  (∀ p : Launch, 0x512 ≤ p.config.fontBase + 79 → State.launch p = none) ∧
  ∀ p : Launch, p.config = {} → (p.fits ↔ p.program.length ≤ 3584)

/-- R35, R5: reset is the conventional launch with no program: pc = 0x200, an empty stack, Running, the font at 0x000,
and every parameter at its default. The values R35 leaves to the launch are the model's choice, zero each: V0 to VF, I,
DT, ST and the screen (log 2), memory outside the font (log 3), no key down (log 4). -/
def Obligations.ResetIsConventionalLaunch : Prop :=
  State.launch {} = some State.reset ∧
  State.reset.pc.toNat = 0x200 ∧ State.reset.stack = [] ∧ State.reset.status = .running ∧
  (∀ k, (h : k < standardFont.length) → State.reset.mem.read k = standardFont[k]) ∧
  (∀ x, State.reset.reg x = 0) ∧ State.reset.i = 0 ∧ State.reset.dt = 0 ∧ State.reset.st = 0 ∧
  (∀ r c, State.reset.screen.cell r c = false) ∧
  (∀ a, standardFont.length ≤ a → State.reset.mem.read a = 0) ∧
  (∀ k, State.reset.keyPressed k = false) ∧
  State.reset.config =
    { memSize := 4096, addrWidth := .bits16, screenW := 64, screenH := 32, stackDepth := 16, numKeys := 16,
      timerHz := 60, fontBase := 0x000, font := ⟨standardFont.toArray, rfl⟩, programBase := 0x200, shiftSource := .vy,
      retNNN := 0x0EE, vfWriteOrder := .flagThenResult, subFlagOnEqual := true, waitKeyMode := .level,
      requireEvenPc := false }

/-- Equal memories are equal data: in canonical form a memory is determined by what its addresses read as (R50). -/
def Obligations.MemoryDeterminedByBytes : Prop :=
  ∀ m n : Memory, m.wf → n.wf → (∀ a, m.read a = n.read a) → m = n

/-! ## Assembler lines -/

/-- R78 to R80: every assembler line stands for exactly one instruction, although operation names are shared, and has at
most three operands. -/
def Obligations.AsmLinesUnambiguous : Prop :=
  (∀ i : Instr, i.asmLine.operands.length ≤ 3) ∧ ∀ i j : Instr, i.asmLine = j.asmLine → i = j
end

