-- ==== Sys2Proof/Laws/Encoding.lean ====
section
/-!
SUPPORT. The fields of a packed word (30_encoding.md R71, R72), and a word from its fields.
-/

namespace Sys2Proof

variable (op : BitVec 4) (x y : RegIx) (n : BitVec 4) (nn : Byte) (nnn : BitVec 12) (w : Word)

@[simp] theorem fieldOp_packNNN : fieldOp (packNNN op nnn) = op := by
  unfold fieldOp packNNN
  apply BitVec.eq_of_getLsbD_eq
  intro i hi
  simp only [BitVec.getLsbD_extractLsb', BitVec.getLsbD_append]
  interval_cases i <;> simp

@[simp] theorem fieldNNN_packNNN : fieldNNN (packNNN op nnn) = nnn := by
  unfold fieldNNN packNNN
  apply BitVec.eq_of_getLsbD_eq
  intro i hi
  simp only [BitVec.getLsbD_extractLsb', BitVec.getLsbD_append]
  interval_cases i <;> simp

@[simp] theorem fieldOp_packXNN : fieldOp (packXNN op x nn) = op := by
  unfold fieldOp packXNN
  apply BitVec.eq_of_getLsbD_eq
  intro i hi
  simp only [BitVec.getLsbD_extractLsb', BitVec.getLsbD_append]
  interval_cases i <;> simp

@[simp] theorem fieldX_packXNN : fieldX (packXNN op x nn) = x := by
  unfold fieldX packXNN
  apply BitVec.eq_of_getLsbD_eq
  intro i hi
  simp only [BitVec.getLsbD_extractLsb', BitVec.getLsbD_append]
  interval_cases i <;> simp

@[simp] theorem fieldNN_packXNN : fieldNN (packXNN op x nn) = nn := by
  unfold fieldNN packXNN
  apply BitVec.eq_of_getLsbD_eq
  intro i hi
  simp only [BitVec.getLsbD_extractLsb', BitVec.getLsbD_append]
  interval_cases i <;> simp

@[simp] theorem fieldOp_packXYN : fieldOp (packXYN op x y n) = op := by
  unfold fieldOp packXYN
  apply BitVec.eq_of_getLsbD_eq
  intro i hi
  simp only [BitVec.getLsbD_extractLsb', BitVec.getLsbD_append]
  interval_cases i <;> simp

@[simp] theorem fieldX_packXYN : fieldX (packXYN op x y n) = x := by
  unfold fieldX packXYN
  apply BitVec.eq_of_getLsbD_eq
  intro i hi
  simp only [BitVec.getLsbD_extractLsb', BitVec.getLsbD_append]
  interval_cases i <;> simp

@[simp] theorem fieldY_packXYN : fieldY (packXYN op x y n) = y := by
  unfold fieldY packXYN
  apply BitVec.eq_of_getLsbD_eq
  intro i hi
  simp only [BitVec.getLsbD_extractLsb', BitVec.getLsbD_append]
  interval_cases i <;> simp

@[simp] theorem fieldN_packXYN : fieldN (packXYN op x y n) = n := by
  unfold fieldN packXYN
  apply BitVec.eq_of_getLsbD_eq
  intro i hi
  simp only [BitVec.getLsbD_extractLsb', BitVec.getLsbD_append]
  interval_cases i <;> simp

/-- A word is its fields, put together again. -/
theorem packNNN_fields : packNNN (fieldOp w) (fieldNNN w) = w := by
  unfold packNNN fieldOp fieldNNN
  apply BitVec.eq_of_getLsbD_eq
  intro i hi
  simp only [BitVec.getLsbD_extractLsb', BitVec.getLsbD_append]
  interval_cases i <;> simp

/-- A word is its fields, put together again. -/
theorem packXNN_fields : packXNN (fieldOp w) (fieldX w) (fieldNN w) = w := by
  unfold packXNN fieldOp fieldX fieldNN
  apply BitVec.eq_of_getLsbD_eq
  intro i hi
  simp only [BitVec.getLsbD_extractLsb', BitVec.getLsbD_append]
  interval_cases i <;> simp

/-- A word is its fields, put together again. -/
theorem packXYN_fields : packXYN (fieldOp w) (fieldX w) (fieldY w) (fieldN w) = w := by
  unfold packXYN fieldOp fieldX fieldY fieldN
  apply BitVec.eq_of_getLsbD_eq
  intro i hi
  simp only [BitVec.getLsbD_extractLsb', BitVec.getLsbD_append]
  interval_cases i <;> simp

/-- Where the last digit is fixed, the byte NN is the digits Y and N. -/
theorem fieldNN_eq : fieldNN w = fieldY w ++ fieldN w := by
  unfold fieldNN fieldY fieldN
  apply BitVec.eq_of_getLsbD_eq
  intro i hi
  simp only [BitVec.getLsbD_extractLsb', BitVec.getLsbD_append]
  interval_cases i <;> simp

/-- A digit is one of sixteen. -/
theorem digit_cases : ∀ d : BitVec 4,
    d = 0x0 ∨ d = 0x1 ∨ d = 0x2 ∨ d = 0x3 ∨ d = 0x4 ∨ d = 0x5 ∨ d = 0x6 ∨ d = 0x7 ∨
      d = 0x8 ∨ d = 0x9 ∨ d = 0xA ∨ d = 0xB ∨ d = 0xC ∨ d = 0xD ∨ d = 0xE ∨ d = 0xF := by
  decide

/-- RET's word is one of the words 0NNN (C1). -/
@[simp] theorem fieldOp_retWord (c : Config) : fieldOp c.retWord = 0 := fieldOp_packNNN 0 c.retNNN

/-- RET's word at the default (R101). -/
theorem retWord_default : Config.retWord {} = 0x00EE := by decide

/-- RET's word is that of CLS only where RET_OPCODE says so (C1). -/
theorem retWord_eq_cls (c : Config) : c.retWord = 0x00E0 ↔ c.retNNN = 0x0E0 := by
  constructor
  · intro h
    have := congrArg fieldNNN h
    rw [Config.retWord, fieldNNN_packNNN] at this
    exact this.trans (by decide)
  · intro h
    rw [Config.retWord, h]; decide

/-- CLS's word is tried first (R74). -/
@[simp] theorem decode_cls (c : Config) : decode c 0x00E0 = .ok .cls := rfl

/-- RET's word, where it is not CLS's (R74, R101). -/
theorem decode_retWord {c : Config} (h : c.retWord ≠ 0x00E0) : decode c c.retWord = .ok .ret := by
  unfold decode
  rw [if_neg h, if_pos rfl]

/-- A word that is neither CLS nor RET decodes by its major opcode (R74). -/
theorem decode_eq_decodeOp {c : Config} {w : Word} (h1 : w ≠ 0x00E0) (h2 : w ≠ c.retWord) :
    decode c w = decodeOp w := by
  unfold decode
  rw [if_neg h1, if_neg h2]

/-- The precedence of CLS and RET matters in the words 0NNN only (R74). -/
theorem decode_of_op_ne_zero {c : Config} {w : Word} (h : fieldOp w ≠ 0) : decode c w = decodeOp w :=
  decode_eq_decodeOp (by rintro rfl; exact h (by decide)) (by rintro rfl; exact h (fieldOp_retWord c))

/-- Fetching the two bytes of a word gives the word back (R52). -/
@[simp] theorem wordOfBytes_bytes : wordOfBytes (w.extractLsb' 8 8) (w.extractLsb' 0 8) = w := by
  unfold wordOfBytes
  apply BitVec.eq_of_getLsbD_eq
  intro i hi
  simp only [BitVec.getLsbD_extractLsb', BitVec.getLsbD_append]
  interval_cases i <;> simp

end Sys2Proof
end

