-- ==== Sys2Proof/Laws/Memory.lean ====
section
/-!
SUPPORT. The laws of memory (20_memory.md R50): a read after a write, the canonical form, and multi-byte transfers.
-/

namespace Sys2Proof.Machine

/-- A byte's place that no entry names reads as its reset contents. -/
theorem Memory.read_of_not_listed {m : Memory} {a : Nat} (h : ∀ c ∈ m, c.1 ≠ a) :
    m.read a = Memory.unlisted a := by
  induction m with
  | nil => rfl
  | cons c rest ih =>
    have hc : ¬ a = c.1 := fun e => h c (by simp) e.symm
    show (if a = c.1 then c.2 else Memory.read rest a) = _
    rw [if_neg hc]
    exact ih fun d hd => h d (List.mem_cons_of_mem _ hd)

/-- A write leaves every other address alone, in canonical form or not. -/
theorem Memory.read_write_ne (m : Memory) {a k : Nat} (b : Byte) (h : k ≠ a) :
    (m.write a b).read k = m.read k := by
  induction m with
  | nil =>
    unfold Memory.write
    split <;> simp [Memory.read, h]
  | cons c rest ih =>
    obtain ⟨j, d⟩ := c
    unfold Memory.write
    split_ifs <;> simp_all [Memory.read]

/-- The addresses above a sorted list's head are above it. -/
theorem Memory.above_head {c : Host.Cell} {rest : Memory}
    (h : (c :: rest).Pairwise (fun d e => d.1 < e.1)) : ∀ d ∈ rest, c.1 < d.1 :=
  (List.pairwise_cons.mp h).1

/-- In canonical form a read after a write to the same address gives the byte written (R50). -/
theorem Memory.read_write_self {m : Memory} (h : m.wf) (a : Nat) (b : Byte) : (m.write a b).read a = b := by
  obtain ⟨hs, -⟩ := h
  induction m with
  | nil =>
    unfold Memory.write
    split <;> simp_all [Memory.read]
  | cons c rest ih =>
    obtain ⟨j, d⟩ := c
    have habove := Memory.above_head hs
    have hrest := (List.pairwise_cons.mp hs).2
    unfold Memory.write
    split_ifs with h1 h2 h3 h4
    · rw [h2]
      refine Memory.read_of_not_listed fun e he => ?_
      rcases List.mem_cons.mp he with rfl | he
      · exact Nat.ne_of_gt h1
      · exact Nat.ne_of_gt (Nat.lt_trans h1 (habove e he))
    · simp [Memory.read]
    · rw [h4]
      refine Memory.read_of_not_listed fun e he => ?_
      have := habove e he
      simp only at this
      omega
    · simp [Memory.read]
    · simp [Memory.read, h3, ih hrest]

/-- What a write can list: the written cell, and cells listed before. -/
theorem Memory.mem_write {m : Memory} {a : Nat} {b : Byte} {c : Host.Cell} (h : c ∈ m.write a b) :
    (c = (a, b) ∧ b ≠ Memory.unlisted a) ∨ c ∈ m := by
  induction m with
  | nil =>
    unfold Memory.write at h
    split at h <;> simp_all
  | cons d rest ih =>
    obtain ⟨j, e⟩ := d
    unfold Memory.write at h
    split_ifs at h <;> simp_all <;> tauto

/-- A write keeps the canonical form. -/
theorem Memory.wf_write {m : Memory} (h : m.wf) (a : Nat) (b : Byte) :
    (m.write a b).wf := by
  refine ⟨?_, fun c hc => ?_⟩
  · obtain ⟨hs, -⟩ := h
    induction m with
    | nil =>
      unfold Memory.write
      split <;> simp
    | cons d rest ih =>
      obtain ⟨j, e⟩ := d
      have habove := Memory.above_head hs
      have hrest := (List.pairwise_cons.mp hs).2
      unfold Memory.write
      split_ifs with h1 h2 h3 h4
      · exact hs
      · refine List.pairwise_cons.mpr ⟨fun f hf => ?_, hs⟩
        rcases List.mem_cons.mp hf with rfl | hf
        · exact h1
        · exact Nat.lt_trans h1 (habove f hf)
      · exact hrest
      · refine List.pairwise_cons.mpr ⟨fun f hf => ?_, hrest⟩
        have := habove f hf
        simp only at this ⊢
        omega
      · refine List.pairwise_cons.mpr ⟨fun f hf => ?_, ih hrest⟩
        rcases Memory.mem_write hf with ⟨rfl, -⟩ | hf
        · simp only; omega
        · exact habove f hf
  · rcases Memory.mem_write hc with ⟨rfl, hb⟩ | hc
    · exact hb
    · exact h.2 c hc

/-- The empty list is canonical. -/
theorem Memory.wf_nil : Memory.wf [] := by simp [Memory.wf]

/-- A transfer keeps the canonical form (R51). -/
theorem Memory.wf_writeBytes {m : Memory} (h : m.wf) (a : Nat) (bytes : List Byte) : (m.writeBytes a bytes).wf := by
  induction bytes generalizing m a with
  | nil => exact h
  | cons b rest ih => exact ih (Memory.wf_write h a b) (a + 1)

/-- A write of an existing address lists existing addresses alone (R50). -/
theorem Memory.within_write {m : Memory} {size a : Nat} (h : m.within size) (ha : a < size) (b : Byte) :
    (m.write a b).within size := by
  intro c hc
  rcases Memory.mem_write hc with ⟨rfl, -⟩ | hc
  · exact ha
  · exact h c hc

/-- A transfer inside a memory lists existing addresses alone (R51). -/
theorem Memory.within_writeBytes {m : Memory} {size a : Nat} {bytes : List Byte} (h : m.within size)
    (ha : bytes.length = 0 ∨ a + bytes.length ≤ size) : (m.writeBytes a bytes).within size := by
  induction bytes generalizing m a with
  | nil => exact h
  | cons b rest ih =>
    simp only [List.length_cons] at ha
    exact ih (Memory.within_write h (by omega) b) (by omega)

/-- A transfer leaves every address outside its range alone. -/
theorem Memory.read_writeBytes_outside (m : Memory) {a k : Nat} {bytes : List Byte}
    (hk : k < a ∨ a + bytes.length ≤ k) : (m.writeBytes a bytes).read k = m.read k := by
  induction bytes generalizing m a with
  | nil => rfl
  | cons b rest ih =>
    simp only [List.length_cons] at hk
    rw [Memory.writeBytes, ih _ (by omega), Memory.read_write_ne _ _ (by omega)]

/-- Each byte of a transfer lands at its address (R53). -/
theorem Memory.read_writeBytes {m : Memory} (h : m.wf) (a : Nat) {bytes : List Byte} {k : Nat} (hk : k < bytes.length) :
    (m.writeBytes a bytes).read (a + k) = bytes[k] := by
  induction bytes generalizing m a k with
  | nil => simp at hk
  | cons b rest ih =>
    cases k with
    | zero =>
      rw [Memory.writeBytes, Nat.add_zero, Memory.read_writeBytes_outside _ (by omega)]
      simpa using Memory.read_write_self h a b
    | succ k =>
      have := ih (Memory.wf_write h a b) (a + 1) (k := k) (by simpa using hk)
      rw [Memory.writeBytes, ← Nat.add_assoc, Nat.add_right_comm]
      simpa using this

@[simp] theorem Memory.length_readBytes (m : Memory) (a n : Nat) : (m.readBytes a n).length = n := by
  simp [Memory.readBytes]

@[simp] theorem Memory.getElem_readBytes (m : Memory) (a n k : Nat) (h : k < (m.readBytes a n).length) :
    (m.readBytes a n)[k] = m.read (a + k) := by
  simp [Memory.readBytes]

end Sys2Proof.Machine
end

