-- ==== Sys2Proof/Laws/State.lean ====
section
/-!
SUPPORT. The small lemmas of the state's operations: one per field per update, so that no later proof unfolds a
record update.
-/

namespace Sys2Proof.Machine

variable (s : State) (x y : RegIx) (b c : Byte)

/-! ## Registers -/

@[simp] theorem State.reg_setReg : (s.setReg x b).reg y = if y = x then b else s.reg y := by
  unfold State.reg State.setReg
  rw [Vector.getElem_set]
  simp only [BitVec.toNat_inj, eq_comm]

theorem State.reg_setReg_self : (s.setReg x b).reg x = b := by simp

theorem State.reg_setReg_ne {x y : RegIx} (h : y ≠ x) : (s.setReg x b).reg y = s.reg y := by simp [h]

@[simp] theorem State.setReg_i : (s.setReg x b).i = s.i := rfl
@[simp] theorem State.setReg_pc : (s.setReg x b).pc = s.pc := rfl
@[simp] theorem State.setReg_stack : (s.setReg x b).stack = s.stack := rfl
@[simp] theorem State.setReg_dt : (s.setReg x b).dt = s.dt := rfl
@[simp] theorem State.setReg_st : (s.setReg x b).st = s.st := rfl
@[simp] theorem State.setReg_mem : (s.setReg x b).mem = s.mem := rfl
@[simp] theorem State.setReg_screen : (s.setReg x b).screen = s.screen := rfl
@[simp] theorem State.setReg_keys : (s.setReg x b).keys = s.keys := rfl
@[simp] theorem State.setReg_status : (s.setReg x b).status = s.status := rfl
@[simp] theorem State.setReg_schedule : (s.setReg x b).schedule = s.schedule := rfl
@[simp] theorem State.setReg_turns : (s.setReg x b).turns = s.turns := rfl
@[simp] theorem State.setReg_draws : (s.setReg x b).draws = s.draws := rfl
@[simp] theorem State.setReg_waiting : (s.setReg x b).waiting = s.waiting := rfl
@[simp] theorem State.setReg_config : (s.setReg x b).config = s.config := rfl

/-! ## The advance of pc -/

/-- An address register keeps 12 bits or 16 (ADDR_REG_WIDTH). -/
theorem State.addrMod_bounds : 4096 ≤ s.addrMod ∧ s.addrMod ≤ 65536 := by
  unfold State.addrMod AddrWidth.modulus
  split <;> decide

/-- At the default width an address register keeps 16 bits (R5, R24). -/
theorem State.addrMod_bits16 (h : s.config.addrWidth = .bits16) : s.addrMod = 65536 := by
  unfold State.addrMod
  rw [h]; rfl

/-- A write of an address register keeps the low ADDR_REG_WIDTH bits (R8). -/
@[simp] theorem State.toAddr_toNat (n : Nat) : (s.toAddr n).toNat = n % s.addrMod := by
  have h := s.addrMod_bounds
  have := Nat.mod_lt n (show 0 < s.addrMod by omega)
  simp only [State.toAddr, BitVec.toNat_ofNat]
  exact Nat.mod_eq_of_lt (by omega)

theorem State.toAddr_lt (n : Nat) : (s.toAddr n).toNat < s.addrMod := by
  rw [State.toAddr_toNat]
  exact Nat.mod_lt _ (by have := s.addrMod_bounds; omega)

theorem State.advance_pc : s.advance.pc = s.toAddr (s.pc.toNat + 2) := rfl
@[simp] theorem State.advance_v : s.advance.v = s.v := rfl
@[simp] theorem State.advance_reg : s.advance.reg x = s.reg x := rfl
@[simp] theorem State.advance_i : s.advance.i = s.i := rfl
@[simp] theorem State.advance_stack : s.advance.stack = s.stack := rfl
@[simp] theorem State.advance_dt : s.advance.dt = s.dt := rfl
@[simp] theorem State.advance_st : s.advance.st = s.st := rfl
@[simp] theorem State.advance_mem : s.advance.mem = s.mem := rfl
@[simp] theorem State.advance_screen : s.advance.screen = s.screen := rfl
@[simp] theorem State.advance_keys : s.advance.keys = s.keys := rfl
@[simp] theorem State.advance_status : s.advance.status = s.status := rfl
@[simp] theorem State.advance_schedule : s.advance.schedule = s.schedule := rfl
@[simp] theorem State.advance_turns : s.advance.turns = s.turns := rfl
@[simp] theorem State.advance_draws : s.advance.draws = s.draws := rfl
@[simp] theorem State.advance_waiting : s.advance.waiting = s.waiting := rfl
@[simp] theorem State.advance_config : s.advance.config = s.config := rfl

theorem State.skipIf_pc (taken : Bool) :
    (s.skipIf taken).pc = s.toAddr (s.pc.toNat + if taken then 4 else 2) := rfl
@[simp] theorem State.skipIf_v (taken : Bool) : (s.skipIf taken).v = s.v := rfl
@[simp] theorem State.skipIf_reg (taken : Bool) : (s.skipIf taken).reg x = s.reg x := rfl
@[simp] theorem State.skipIf_i (taken : Bool) : (s.skipIf taken).i = s.i := rfl
@[simp] theorem State.skipIf_stack (taken : Bool) : (s.skipIf taken).stack = s.stack := rfl
@[simp] theorem State.skipIf_dt (taken : Bool) : (s.skipIf taken).dt = s.dt := rfl
@[simp] theorem State.skipIf_st (taken : Bool) : (s.skipIf taken).st = s.st := rfl
@[simp] theorem State.skipIf_mem (taken : Bool) : (s.skipIf taken).mem = s.mem := rfl
@[simp] theorem State.skipIf_screen (taken : Bool) : (s.skipIf taken).screen = s.screen := rfl
@[simp] theorem State.skipIf_keys (taken : Bool) : (s.skipIf taken).keys = s.keys := rfl
@[simp] theorem State.skipIf_status (taken : Bool) : (s.skipIf taken).status = s.status := rfl
@[simp] theorem State.skipIf_schedule (taken : Bool) : (s.skipIf taken).schedule = s.schedule := rfl
@[simp] theorem State.skipIf_turns (taken : Bool) : (s.skipIf taken).turns = s.turns := rfl
@[simp] theorem State.skipIf_draws (taken : Bool) : (s.skipIf taken).draws = s.draws := rfl
@[simp] theorem State.skipIf_waiting (taken : Bool) : (s.skipIf taken).waiting = s.waiting := rfl
@[simp] theorem State.skipIf_config (taken : Bool) : (s.skipIf taken).config = s.config := rfl

/-! ## The flag-writing pair -/

/-- The two writes of a flag-writing instruction, in one order or the other (R9). -/
theorem State.writeFlagged_eq :
    (s.config.vfWriteOrder = .flagThenResult ∧ s.writeFlagged x b c = (s.setReg vf b).setReg x c) ∨
      (s.config.vfWriteOrder = .resultThenFlag ∧ s.writeFlagged x b c = (s.setReg x c).setReg vf b) := by
  unfold State.writeFlagged
  cases s.config.vfWriteOrder
  · exact .inl ⟨rfl, rfl⟩
  · exact .inr ⟨rfl, rfl⟩

/-- What the pair leaves in each register: X = 0xF is written twice, and VF_WRITE_ORDER says which write stands (R9). -/
theorem State.reg_writeFlagged :
    (s.writeFlagged x b c).reg y =
      if y = x ∧ (x ≠ vf ∨ s.config.vfWriteOrder = .flagThenResult) then c else if y = vf then b else s.reg y := by
  rcases s.writeFlagged_eq x b c with ⟨ho, h⟩ | ⟨ho, h⟩ <;> rw [h, ho]
  · simp
  · simp only [State.reg_setReg]
    split_ifs <;> simp_all

/-! ## A tick -/

@[simp] theorem State.tick_dt : s.tick.dt = countDown s.dt := rfl
@[simp] theorem State.tick_st : s.tick.st = countDown s.st := rfl
@[simp] theorem State.tick_v : s.tick.v = s.v := rfl
@[simp] theorem State.tick_reg : s.tick.reg x = s.reg x := rfl
@[simp] theorem State.tick_i : s.tick.i = s.i := rfl
@[simp] theorem State.tick_pc : s.tick.pc = s.pc := rfl
@[simp] theorem State.tick_stack : s.tick.stack = s.stack := rfl
@[simp] theorem State.tick_mem : s.tick.mem = s.mem := rfl
@[simp] theorem State.tick_screen : s.tick.screen = s.screen := rfl
@[simp] theorem State.tick_keys : s.tick.keys = s.keys := rfl
@[simp] theorem State.tick_status : s.tick.status = s.status := rfl
@[simp] theorem State.tick_schedule : s.tick.schedule = s.schedule := rfl
@[simp] theorem State.tick_turns : s.tick.turns = s.turns := rfl
@[simp] theorem State.tick_draws : s.tick.draws = s.draws := rfl
@[simp] theorem State.tick_waiting : s.tick.waiting = s.waiting := rfl
@[simp] theorem State.tick_config : s.tick.config = s.config := rfl

/-! ## A boundary's moment: everything it does not touch -/

/-- Ticks only touch the two timers. -/
theorem State.ticks_eq (n : Nat) (s : State) :
    s.ticks n = { s with dt := (s.ticks n).dt, st := (s.ticks n).st } := by
  induction n generalizing s with
  | zero => rfl
  | succ n ih => exact ih s.tick

/-- The ticks of a boundary, however they are counted, are ticks. -/
theorem State.timersRun_eq (n : Nat) : s.timersRun n = s.ticks n := by
  unfold State.timersRun
  split
  · rename_i h
    symm
    induction n with
    | zero => rfl
    | succ n ih =>
      have : s.tick = s := by
        cases s; simp_all [State.tick, countDown]
      rw [State.ticks, this, ih]
  · rfl

/-- A boundary touches the timers, the key set and the model's own counter, nothing else. -/
theorem State.passMoment_eq (m : Moment) :
    s.passMoment m =
      { s with dt := (s.ticks m.ticks).dt, st := (s.ticks m.ticks).st, keys := m.keys, turns := s.turns + 1 } := by
  unfold State.passMoment
  rw [State.timersRun_eq, State.ticks_eq]

/-- The boundary while the machine runs: the moment passes and the schedule moves on; nothing else changes. -/
theorem State.boundary_running (h : s.status = .running) :
    s.boundary =
      { s with
        dt := (s.ticks s.nextMoment.ticks).dt
        st := (s.ticks s.nextMoment.ticks).st
        keys := s.nextMoment.keys
        turns := s.turns + 1
        schedule := s.schedule.tail } := by
  have hb : s.boundary = { s.passMoment s.nextMoment with schedule := s.schedule.tail } := by
    unfold State.boundary
    rw [h]
  rw [hb, State.passMoment_eq]

/-- Once the run is over a boundary changes nothing. -/
theorem State.boundary_ended (h : s.status ≠ .running) : s.boundary = s := by
  unfold State.boundary
  cases hs : s.status <;> simp_all

@[simp] theorem State.boundary_faulted (f : RunFault) :
    State.boundary { s with status := .faulted f } = { s with status := .faulted f } := rfl

@[simp] theorem State.boundary_aborted (nnn : BitVec 12) :
    State.boundary { s with status := .aborted nnn } = { s with status := .aborted nnn } := rfl

end Sys2Proof.Machine
end

