-- ==== Sys2Proof/Laws/Ops.lean ====
section
/-!
SUPPORT. One lemma per shared operation that says everything it can do.
-/

namespace Sys2Proof.Machine

/-- Going on with a value. -/
@[simp] theorem State.orRaise_ok {α : Type} (s : State) (a : α) (k : α → Result) :
    s.orRaise (.ok a) k = k a := rfl

/-- Raising: the status alone changes (R174). -/
@[simp] theorem State.orRaise_error {α : Type} (s : State) (f : RunFault) (k : α → Result) :
    s.orRaise (.error f) k = .next { s with status := .faulted f } := rfl

/-- An operation that may raise ends in a next state in one of two ways. -/
theorem State.orRaise_next {α : Type} {s t : State} {r : Except RunFault α} {k : α → Result}
    (h : s.orRaise r k = .next t) :
    (∃ a, r = .ok a ∧ k a = .next t) ∨ ∃ f, r = .error f ∧ t = { s with status := .faulted f } := by
  cases r with
  | ok a => exact .inl ⟨a, rfl, h⟩
  | error f => exact .inr ⟨f, rfl, by simpa using h.symm⟩

/-- push (R25): it adds the newest entry, or the stack is full. -/
theorem State.push_eq (s : State) (a : Addr) :
    (s.stack.length < s.config.stackDepth ∧ s.push a = .ok { s with stack := a :: s.stack }) ∨
      (s.config.stackDepth ≤ s.stack.length ∧ s.push a = .error (.stackOverflow s.pc)) := by
  unfold State.push
  split
  · exact .inl ⟨by assumption, rfl⟩
  · exact .inr ⟨by omega, rfl⟩

/-- pop (R25): it removes the newest entry, or the stack is empty. -/
theorem State.pop_eq (s : State) :
    (∃ a rest, s.stack = a :: rest ∧ s.pop = .ok (a, { s with stack := rest })) ∨
      (s.stack = [] ∧ s.pop = .error (.stackUnderflow s.pc)) := by
  unfold State.pop
  split
  · exact .inl ⟨_, _, by assumption, rfl⟩
  · exact .inr ⟨by assumption, rfl⟩

/-- A transfer inside memory has no fault. -/
theorem State.transferFault_none (s : State) {a n : Nat} (h : n = 0 ∨ a + n ≤ s.config.memSize) :
    s.transferFault a n = none := by
  unfold State.transferFault
  rw [if_neg (by omega)]

/-- A transfer that passes the last address faults with its lowest offending address (R51, R171). -/
theorem State.transferFault_some (s : State) {a n : Nat} (hn : 0 < n) (h : s.config.memSize < a + n) :
    s.transferFault a n = some (.addressOutOfRange s.pc (max a s.config.memSize)) := by
  unfold State.transferFault
  rw [if_pos (by omega)]

/-- MemRead (R51): the bytes, or AddressOutOfRange. -/
theorem State.loadBytes_eq (s : State) (a n : Nat) :
    ((n = 0 ∨ a + n ≤ s.config.memSize) ∧ s.loadBytes a n = .ok (s.mem.readBytes a n)) ∨
      (0 < n ∧ s.config.memSize < a + n ∧ s.loadBytes a n = .error (.addressOutOfRange s.pc (max a s.config.memSize))) := by
  unfold State.loadBytes
  by_cases h : n = 0 ∨ a + n ≤ s.config.memSize
  · exact .inl ⟨h, by rw [s.transferFault_none h]⟩
  · exact .inr ⟨by omega, by omega, by rw [s.transferFault_some (by omega) (by omega)]⟩

/-- MemWrite (R51): the bytes land, or AddressOutOfRange and nothing is written. -/
theorem State.storeBytes_eq (s : State) (a : Nat) (bytes : List Byte) :
    ((bytes.length = 0 ∨ a + bytes.length ≤ s.config.memSize) ∧
        s.storeBytes a bytes = .ok { s with mem := s.mem.writeBytes a bytes }) ∨
      (0 < bytes.length ∧ s.config.memSize < a + bytes.length ∧
        s.storeBytes a bytes = .error (.addressOutOfRange s.pc (max a s.config.memSize))) := by
  unfold State.storeBytes
  by_cases h : bytes.length = 0 ∨ a + bytes.length ≤ s.config.memSize
  · exact .inl ⟨h, by rw [s.transferFault_none h]⟩
  · exact .inr ⟨by omega, by omega, by rw [s.transferFault_some (by omega) (by omega)]⟩

/-- Instruction fetch (R51, R52, R54): the big-endian word at pc, FetchOutOfRange, or the model's own fault where
REQUIRE_EVEN_PC refuses an odd pc. -/
theorem State.fetchWord_eq (s : State) :
    (s.pc.toNat + 1 < s.config.memSize ∧ s.oddRefused = false ∧
        s.fetchWord = .ok (wordOfBytes (s.mem.read s.pc.toNat) (s.mem.read (s.pc.toNat + 1)))) ∨
      (s.config.memSize ≤ s.pc.toNat + 1 ∧ s.fetchWord = .error (.fetchOutOfRange s.pc)) ∨
      (s.pc.toNat + 1 < s.config.memSize ∧ s.oddRefused = true ∧ s.fetchWord = .error (.oddFetch s.pc)) := by
  unfold State.fetchWord
  split
  · rename_i h
    cases ho : s.oddRefused
    · exact .inl ⟨h, rfl, rfl⟩
    · exact .inr (.inr ⟨h, rfl, rfl⟩)
  · exact .inr (.inl ⟨by omega, rfl⟩)

/-- A fetch that is neither past the end nor refused. -/
theorem State.fetchWord_ok {s : State} (h : s.pc.toNat + 1 < s.config.memSize) (ho : s.oddRefused = false) :
    s.fetchWord = .ok (wordOfBytes (s.mem.read s.pc.toNat) (s.mem.read (s.pc.toNat + 1))) := by
  unfold State.fetchWord
  rw [if_pos h, ho]; rfl

/-- A fetch past the end (F1). -/
theorem State.fetchWord_past {s : State} (h : s.config.memSize ≤ s.pc.toNat + 1) :
    s.fetchWord = .error (.fetchOutOfRange s.pc) := by
  unfold State.fetchWord
  rw [if_neg (by omega)]

/-- A fetch refused for its odd pc (log 28). -/
theorem State.fetchWord_odd {s : State} (h : s.pc.toNat + 1 < s.config.memSize) (ho : s.oddRefused = true) :
    s.fetchWord = .error (.oddFetch s.pc) := by
  unfold State.fetchWord
  rw [if_pos h, ho]; rfl

/-- An odd pc is refused only where REQUIRE_EVEN_PC is true (R54). -/
theorem State.oddRefused_eq (s : State) : s.oddRefused = true ↔ s.config.requireEvenPc = true ∧ s.pc.toNat % 2 = 1 := by
  simp [State.oddRefused]

/-- The key operand (R160): the key number, or BadKeyIndex. -/
theorem State.keyOperand_eq (s : State) (x : RegIx) :
    ((s.reg x).toNat < s.config.numKeys ∧ s.keyOperand x = .ok (s.reg x).toNat) ∨
      (s.config.numKeys ≤ (s.reg x).toNat ∧ s.keyOperand x = .error (.badKeyIndex s.pc (s.reg x))) := by
  unfold State.keyOperand
  split
  · exact .inl ⟨by assumption, rfl⟩
  · exact .inr ⟨by omega, rfl⟩

/-- The digit operand (R142): the digit, or BadFontDigit. -/
theorem State.digitOperand_eq (s : State) (x : RegIx) :
    ((s.reg x).toNat ≤ 0xF ∧ s.digitOperand x = .ok (s.reg x).toNat) ∨
      (0xF < (s.reg x).toNat ∧ s.digitOperand x = .error (.badFontDigit s.pc (s.reg x))) := by
  unfold State.digitOperand
  split
  · exact .inl ⟨by omega, rfl⟩
  · exact .inr ⟨by omega, rfl⟩

@[simp] theorem immAddr_toNat (nnn : BitVec 12) : (immAddr nnn).toNat = nnn.toNat := by
  simp [immAddr]; omega

/-- The operand of SHR and SHL: V[Y], or V[X] where SHIFT_SOURCE says so (R128, R130, U1). -/
theorem State.shiftOperand_eq (s : State) (x y : RegIx) :
    (s.config.shiftSource = .vy ∧ s.shiftOperand x y = s.reg y) ∨
      (s.config.shiftSource = .vx ∧ s.shiftOperand x y = s.reg x) := by
  unfold State.shiftOperand
  cases s.config.shiftSource
  · exact .inl ⟨rfl, rfl⟩
  · exact .inr ⟨rfl, rfl⟩

/-- A register range names one byte more than its last index (R144). -/
@[simp] theorem State.length_regRange (s : State) (x : RegIx) : (s.regRange x).length = x.toNat + 1 := by
  have := x.isLt
  simp only [State.regRange, List.length_take, Vector.length_toList]; omega

/-- The register range in index order (R144). -/
theorem State.getElem_regRange (s : State) (x r : RegIx) (h : r.toNat < (s.regRange x).length) :
    (s.regRange x)[r.toNat] = s.reg r := by
  simp [State.regRange, State.reg]

/-- Loading a register range (R145): V0 to V[X] receive the bytes in order, the others stay. -/
theorem State.reg_setRegRange (s : State) (x r : RegIx) (bytes : List Byte) :
    (s.setRegRange x bytes).reg r = if r.toNat ≤ x.toNat then bytes.getD r.toNat (s.reg r) else s.reg r := by
  simp [State.setRegRange, State.reg]

end Sys2Proof.Machine
end

