-- ==== Sys2Proof/Laws/Frames.lean ====
section
/-!
SUPPORT. What each instruction may write, said once, and the one lemma that exec writes nothing else: the statements
about who may change what are read off it, one constructor at a time.
-/

namespace Sys2Proof.Machine

/-- The general registers an instruction may write. -/
def writesReg : Instr → RegIx → Bool
  | .sys _, _ => false
  | .cls, _ => false
  | .ret, _ => false
  | .jmp _, _ => false
  | .call _, _ => false
  | .skipEImm _ _, _ => false
  | .skipNeImm _ _, _ => false
  | .skipEReg _ _, _ => false
  | .ldImm x _, r => decide (r = x)
  | .addImm x _, r => decide (r = x)
  | .ldReg x _, r => decide (r = x)
  | .or x _, r => decide (r = x)
  | .and x _, r => decide (r = x)
  | .xor x _, r => decide (r = x)
  | .addReg x _, r => decide (r = x ∨ r = vf)
  | .sub x _, r => decide (r = x ∨ r = vf)
  | .shr x _, r => decide (r = x ∨ r = vf)
  | .subn x _, r => decide (r = x ∨ r = vf)
  | .shl x _, r => decide (r = x ∨ r = vf)
  | .skipNeReg _ _, _ => false
  | .stI _, _ => false
  | .jmpV0 _, _ => false
  | .rand x _, r => decide (r = x)
  | .draw _ _ _, r => decide (r = vf)
  | .skipKp _, _ => false
  | .skipKnp _, _ => false
  | .ldDt x, r => decide (r = x)
  | .ldK x, r => decide (r = x)
  | .stDt _, _ => false
  | .stSt _, _ => false
  | .addI _, r => decide (r = vf)
  | .ldF _, _ => false
  | .ldB _, _ => false
  | .stRegs _, _ => false
  | .ldRegs x, r => decide (r.toNat ≤ x.toNat)

/-- The other pieces of state an instruction may write. -/
def writesPiece : Instr → List Piece
  | .sys _ => [.status]
  | .cls => [.screen, .pc]
  | .ret => [.pc, .stack, .status]
  | .jmp _ => [.pc]
  | .call _ => [.pc, .stack, .status]
  | .skipEImm _ _ => [.pc]
  | .skipNeImm _ _ => [.pc]
  | .skipEReg _ _ => [.pc]
  | .ldImm _ _ => [.pc]
  | .addImm _ _ => [.pc]
  | .ldReg _ _ => [.pc]
  | .or _ _ => [.pc]
  | .and _ _ => [.pc]
  | .xor _ _ => [.pc]
  | .addReg _ _ => [.pc]
  | .sub _ _ => [.pc]
  | .shr _ _ => [.pc]
  | .subn _ _ => [.pc]
  | .shl _ _ => [.pc]
  | .skipNeReg _ _ => [.pc]
  | .stI _ => [.i, .pc]
  | .jmpV0 _ => [.pc]
  | .rand _ _ => [.pc, .draws]
  | .draw _ _ _ => [.screen, .pc, .status]
  | .skipKp _ => [.pc, .status]
  | .skipKnp _ => [.pc, .status]
  | .ldDt _ => [.pc]
  | .ldK _ => [.pc, .draws, .waiting]
  | .stDt _ => [.dt, .pc]
  | .stSt _ => [.st, .pc]
  | .addI _ => [.i, .pc]
  | .ldF _ => [.i, .pc, .status]
  | .ldB _ => [.mem, .pc, .status]
  | .stRegs _ => [.mem, .i, .pc, .status]
  | .ldRegs _ => [.i, .pc, .status]

/-- `t` differs from `s` at most in what `w` and `ps` say. -/
def Within (w : RegIx → Bool) (ps : List Piece) (s t : State) : Prop :=
  (∀ r, w r = false → t.reg r = s.reg r) ∧ ∀ p, p ∉ ps → p.same s t

/-- An operation that may raise stays within a frame that allows the status to change, if its other way does. -/
theorem within_orRaise {α : Type} {w : RegIx → Bool} {ps : List Piece} {s t : State} {r : Except RunFault α}
    {k : α → Result} (hps : Piece.status ∈ ps) (hk : ∀ a, r = .ok a → k a = .next t → Within w ps s t)
    (h : s.orRaise r k = .next t) : Within w ps s t := by
  rcases State.orRaise_next h with ⟨a, ha, hn⟩ | ⟨f, -, rfl⟩
  · exact hk a ha hn
  · refine ⟨fun r _ => rfl, fun p hp => ?_⟩
    cases p <;> first | rfl | exact fun _ => rfl | exact absurd hps hp

/-- Loading one register writes that register and pc. -/
theorem within_load (s : State) (x : RegIx) (b : Byte) :
    Within (fun r => decide (r = x)) [.pc] s (s.setReg x b).advance := by
  refine ⟨fun r hr => ?_, fun p hp => ?_⟩
  · rw [State.advance_reg, State.reg_setReg, if_neg (of_decide_eq_false hr)]
  · cases p <;> first | rfl | exact fun _ => rfl | simp at hp

/-- Loading one register and counting a free value writes that register, pc and the counter. -/
theorem within_loadDraw (s : State) (x : RegIx) (b : Byte) :
    Within (fun r => decide (r = x)) [.pc, .draws] s (State.setReg { s with draws := s.draws + 1 } x b).advance := by
  refine ⟨fun r hr => ?_, fun p hp => ?_⟩
  · rw [State.advance_reg, State.reg_setReg, if_neg (of_decide_eq_false hr)]; rfl
  · cases p <;> first | rfl | exact fun _ => rfl | simp at hp

/-- A flag-writing arithmetic instruction writes its destination, VF and pc, in either order of the two writes. -/
theorem within_loadFlagged (s : State) (x : RegIx) (b c : Byte) :
    Within (fun r => decide (r = x ∨ r = vf)) [.pc] s (s.writeFlagged x b c).advance := by
  refine ⟨fun r hr => ?_, fun p hp => ?_⟩
  · have h := not_or.mp (of_decide_eq_false hr)
    rw [State.advance_reg, State.reg_writeFlagged, if_neg (fun e => h.1 e.1), if_neg h.2]
  · rcases s.writeFlagged_eq x b c with ⟨-, e⟩ | ⟨-, e⟩ <;> rw [e] <;>
      cases p <;> first | rfl | exact fun _ => rfl | simp at hp

/-- A held FX0A changes at most the model's own note of the wait; so does the end of the wait (log 35). -/
theorem within_wait (s : State) {t : State} (h : t = s.holdWait ∨ t = s.endWait) :
    ∃ w, t = { s with waiting := w } := by
  rcases h with rfl | rfl
  · unfold State.holdWait; cases s.config.waitKeyMode <;> exact ⟨_, rfl⟩
  · unfold State.endWait; cases s.config.waitKeyMode <;> exact ⟨_, rfl⟩

/-- The keys FX0A reports are those that end its wait (R163; log 35). -/
theorem mem_keysReported (s : State) (k : Nat) : k ∈ s.keysReported ↔ EndsWait s k := by
  unfold State.keysReported EndsWait State.keysDown
  cases s.config.waitKeyMode <;> cases s.waiting <;> simp <;> tauto

/-- Everything FX0A can do: it is held, or it loads a reported key's number, drawing the key when several are. -/
theorem execLdK_eq (x : RegIx) (s : State) :
    (s.keysReported = [] ∧ execLdK x s = .next s.holdWait) ∨
      ∃ k ∈ s.keysReported, ∃ d, execLdK x s =
        .next (State.setReg { s.endWait with draws := d } x (BitVec.ofNat 8 k)).advance := by
  unfold execLdK
  cases hl : s.keysReported with
  | nil => exact .inl ⟨rfl, rfl⟩
  | cons k others =>
    refine .inr ?_
    cases others with
    | nil => exact ⟨k, by simp, s.endWait.draws, rfl⟩
    | cons j rest =>
      have hlt : Config.freeChoice s.draws % (k :: j :: rest).length < (k :: j :: rest).length :=
        Nat.mod_lt _ (by simp)
      refine ⟨_, ?_, _, rfl⟩
      rw [List.getD_eq_getElem _ _ hlt]
      exact List.getElem_mem _

/-- Every instruction writes only what the two tables above say (R21, R23 to R29, R55). -/
theorem exec_within {i : Instr} {s t : State} (h : exec i s = .next t) :
    Within (writesReg i) (writesPiece i) s t := by
  cases i with
  | sys nnn =>
    cases h
    exact ⟨fun r _ => rfl, fun p hp => by cases p <;> first | rfl | exact fun _ => rfl | simp [writesPiece] at hp⟩
  | cls =>
    cases h
    exact ⟨fun r _ => rfl, fun p hp => by cases p <;> first | rfl | exact fun _ => rfl | simp [writesPiece] at hp⟩
  | ret =>
    refine within_orRaise (by simp [writesPiece]) (fun a ha hn => ?_) h
    rcases s.pop_eq with ⟨_, _, _, e⟩ | ⟨_, e⟩ <;> rw [e] at ha <;> cases ha
    cases hn
    exact ⟨fun r _ => rfl, fun p hp => by cases p <;> first | rfl | exact fun _ => rfl | simp [writesPiece] at hp⟩
  | jmp nnn =>
    cases h
    exact ⟨fun r _ => rfl, fun p hp => by cases p <;> first | rfl | exact fun _ => rfl | simp [writesPiece] at hp⟩
  | call nnn =>
    refine within_orRaise (by simp [writesPiece]) (fun a ha hn => ?_) h
    rcases s.push_eq _ with ⟨_, e⟩ | ⟨_, e⟩ <;> rw [e] at ha <;> cases ha
    cases hn
    exact ⟨fun r _ => rfl, fun p hp => by cases p <;> first | rfl | exact fun _ => rfl | simp [writesPiece] at hp⟩
  | skipEImm x nn =>
    cases h
    exact ⟨fun r _ => rfl, fun p hp => by cases p <;> first | rfl | exact fun _ => rfl | simp [writesPiece] at hp⟩
  | skipNeImm x nn =>
    cases h
    exact ⟨fun r _ => rfl, fun p hp => by cases p <;> first | rfl | exact fun _ => rfl | simp [writesPiece] at hp⟩
  | skipEReg x y =>
    cases h
    exact ⟨fun r _ => rfl, fun p hp => by cases p <;> first | rfl | exact fun _ => rfl | simp [writesPiece] at hp⟩
  | ldImm x nn =>
    cases h; exact within_load _ _ _
  | addImm x nn =>
    cases h; exact within_load _ _ _
  | ldReg x y =>
    cases h; exact within_load _ _ _
  | or x y =>
    cases h; exact within_load _ _ _
  | and x y =>
    cases h; exact within_load _ _ _
  | xor x y =>
    cases h; exact within_load _ _ _
  | addReg x y =>
    cases h; exact within_loadFlagged _ _ _ _
  | sub x y =>
    cases h; exact within_loadFlagged _ _ _ _
  | shr x y =>
    cases h; exact within_loadFlagged _ _ _ _
  | subn x y =>
    cases h; exact within_loadFlagged _ _ _ _
  | shl x y =>
    cases h; exact within_loadFlagged _ _ _ _
  | skipNeReg x y =>
    cases h
    exact ⟨fun r _ => rfl, fun p hp => by cases p <;> first | rfl | exact fun _ => rfl | simp [writesPiece] at hp⟩
  | stI nnn =>
    cases h
    exact ⟨fun r _ => rfl, fun p hp => by cases p <;> first | rfl | exact fun _ => rfl | simp [writesPiece] at hp⟩
  | jmpV0 nnn =>
    cases h
    exact ⟨fun r _ => rfl, fun p hp => by cases p <;> first | rfl | exact fun _ => rfl | simp [writesPiece] at hp⟩
  | rand x nn =>
    cases h; exact within_loadDraw _ _ _
  | draw x y n =>
    refine within_orRaise (by simp [writesPiece]) (fun a ha hn => ?_) h
    cases hn
    refine ⟨fun r hr => ?_, fun p hp => by cases p <;> first | rfl | exact fun _ => rfl | simp [writesPiece] at hp⟩
    rw [State.advance_reg, State.reg_setReg_ne _ _ (of_decide_eq_false hr)]; rfl
  | skipKp x =>
    refine within_orRaise (by simp [writesPiece]) (fun a _ hn => ?_) h
    cases hn
    exact ⟨fun r _ => rfl, fun p hp => by cases p <;> first | rfl | exact fun _ => rfl | simp [writesPiece] at hp⟩
  | skipKnp x =>
    refine within_orRaise (by simp [writesPiece]) (fun a _ hn => ?_) h
    cases hn
    exact ⟨fun r _ => rfl, fun p hp => by cases p <;> first | rfl | exact fun _ => rfl | simp [writesPiece] at hp⟩
  | ldDt x =>
    cases h; exact within_load _ _ _
  | ldK x =>
    rcases execLdK_eq x s with ⟨-, e⟩ | ⟨k, -, d, e⟩ <;> rw [exec, e] at h <;> cases h
    · obtain ⟨w, e⟩ := within_wait s (.inl rfl)
      rw [e]
      exact ⟨fun r _ => rfl, fun p hp => by cases p <;> first | rfl | exact fun _ => rfl | simp [writesPiece] at hp⟩
    · obtain ⟨w, e⟩ := within_wait s (.inr rfl)
      rw [e]
      refine ⟨fun r hr => ?_, fun p hp => by cases p <;> first | rfl | exact fun _ => rfl | simp [writesPiece] at hp⟩
      rw [State.advance_reg, State.reg_setReg, if_neg (of_decide_eq_false hr)]; rfl
  | stDt x =>
    cases h
    exact ⟨fun r _ => rfl, fun p hp => by cases p <;> first | rfl | exact fun _ => rfl | simp [writesPiece] at hp⟩
  | stSt x =>
    cases h
    exact ⟨fun r _ => rfl, fun p hp => by cases p <;> first | rfl | exact fun _ => rfl | simp [writesPiece] at hp⟩
  | addI x =>
    cases h
    refine ⟨fun r hr => ?_, fun p hp => by cases p <;> first | rfl | exact fun _ => rfl | simp [writesPiece] at hp⟩
    exact s.reg_setReg_ne _ (of_decide_eq_false hr)
  | ldF x =>
    refine within_orRaise (by simp [writesPiece]) (fun a _ hn => ?_) h
    cases hn
    exact ⟨fun r _ => rfl, fun p hp => by cases p <;> first | rfl | exact fun _ => rfl | simp [writesPiece] at hp⟩
  | ldB x =>
    refine within_orRaise (by simp [writesPiece]) (fun a ha hn => ?_) h
    rcases s.storeBytes_eq _ _ with ⟨_, e⟩ | ⟨_, _, e⟩ <;> rw [e] at ha <;> cases ha
    cases hn
    exact ⟨fun r _ => rfl, fun p hp => by cases p <;> first | rfl | exact fun _ => rfl | simp [writesPiece] at hp⟩
  | stRegs x =>
    refine within_orRaise (by simp [writesPiece]) (fun a ha hn => ?_) h
    rcases s.storeBytes_eq _ _ with ⟨_, e⟩ | ⟨_, _, e⟩ <;> rw [e] at ha <;> cases ha
    cases hn
    exact ⟨fun r _ => rfl, fun p hp => by cases p <;> first | rfl | exact fun _ => rfl | simp [writesPiece] at hp⟩
  | ldRegs x =>
    refine within_orRaise (by simp [writesPiece]) (fun a ha hn => ?_) h
    cases hn
    refine ⟨fun r hr => ?_, fun p hp => by cases p <;> first | rfl | exact fun _ => rfl | simp [writesPiece] at hp⟩
    exact (s.reg_setRegRange x r a).trans (if_neg (of_decide_eq_false hr))

end Sys2Proof.Machine
end

