-- ==== Sys2Proof/Laws/Screen.lean ====
section
/-!
SUPPORT. What the screen operations do, cell by cell (44_display.md R151, R152), and that they keep the screen's shape.
-/

namespace Sys2Proof.Machine

/-- The sprite bit that falls on the cell (r, c) when a sprite of one byte a row is laid with its top-left cell at
(row, col), bit 7 leftmost; 0 beside the sprite (R152 (c), (d)). -/
def spriteBit (row col : Nat) (sprite : List Byte) (r c : Nat) : Bool :=
  decide (row ≤ r ∧ col ≤ c ∧ c < col + 8) && (sprite.getD (r - row) 0).getLsbD (7 - (c - col))

/-! ## Cells and shape -/

/-- The rows of a screen of some shape have its width. -/
theorem Screen.shaped_row {m : Screen} {h w r : Nat} (hm : m.shaped h w) (hr : r < m.length) : (m[r]).length = w :=
  hm.2 _ (List.getElem_mem hr)

/-- A cell outside the matrix reads as off. -/
theorem Screen.cell_outside {m : Screen} {h w r c : Nat} (hm : m.shaped h w) (ho : ¬ (r < h ∧ c < w)) :
    m.cell r c = false := by
  unfold Screen.cell
  by_cases hr : r < m.length
  · have hw := Screen.shaped_row hm hr
    have hl := hm.1
    rw [List.getD_eq_getElem m [] hr, List.getD_eq_default _ _ (by omega)]
  · rw [List.getD_eq_default m [] (by omega)]; rfl

@[simp] theorem Screen.cell_blank (h w r c : Nat) : (Screen.blank h w).cell r c = false := by
  unfold Screen.cell Screen.blank
  simp only [List.getD_eq_getElem?_getD, List.getElem?_replicate]
  split
  · simp only [Option.getD_some, List.getElem?_replicate]
    split <;> rfl
  · rfl

theorem Screen.shaped_blank (h w : Nat) : (Screen.blank h w).shaped h w := by
  refine ⟨List.length_replicate, fun row hr => ?_⟩
  rw [(List.mem_replicate.mp hr).2, List.length_replicate]

/-- Two screens of one shape with the same cells are the same screen. -/
theorem Screen.ext_cells {m n : Screen} {h w : Nat} (hm : m.shaped h w) (hn : n.shaped h w)
    (he : ∀ r c, m.cell r c = n.cell r c) : m = n := by
  refine List.ext_getElem (hm.1.trans hn.1.symm) fun r h1 h2 => ?_
  have w1 := Screen.shaped_row hm h1
  have w2 := Screen.shaped_row hn h2
  refine List.ext_getElem (w1.trans w2.symm) fun c k1 k2 => ?_
  have := he r c
  unfold Screen.cell at this
  rwa [List.getD_eq_getElem m [] h1, List.getD_eq_getElem n [] h2, List.getD_eq_getElem _ false k1,
    List.getD_eq_getElem _ false k2] at this

/-- Flipping a cell keeps the shape. -/
theorem Screen.shaped_flip {m : Screen} {h w : Nat} (hm : m.shaped h w) (r c : Nat) : (m.flip r c).shaped h w := by
  refine ⟨by rw [Screen.flip, List.length_modify]; exact hm.1, fun row hr => ?_⟩
  obtain ⟨k, hk, rfl⟩ := List.getElem_of_mem hr
  have hk' : k < m.length := by simpa [Screen.flip] using hk
  simp only [Screen.flip, List.getElem_modify]
  split
  · rw [List.length_modify]; exact Screen.shaped_row hm hk'
  · exact Screen.shaped_row hm hk'

/-- Flipping a cell that lies on the screen changes that cell alone. -/
theorem Screen.cell_flip {m : Screen} {h w r c : Nat} (hm : m.shaped h w) (hr : r < h) (hc : c < w) (r' c' : Nat) :
    (m.flip r c).cell r' c' = ((m.cell r' c') ^^ decide (r' = r ∧ c' = c)) := by
  by_cases hin : r' < h ∧ c' < w
  · have h1 : r' < m.length := by rw [hm.1]; exact hin.1
    have h2 : r' < (m.flip r c).length := by rw [(Screen.shaped_flip hm r c).1]; exact hin.1
    have w1 := Screen.shaped_row hm h1
    have w2 := Screen.shaped_row (Screen.shaped_flip hm r c) h2
    unfold Screen.cell
    rw [List.getD_eq_getElem m [] h1, List.getD_eq_getElem _ [] h2,
      List.getD_eq_getElem m[r'] false (by omega), List.getD_eq_getElem _ false (by omega)]
    simp only [Screen.flip, List.getElem_modify]
    by_cases e1 : r = r'
    · subst e1
      by_cases e2 : c = c'
      · subst e2; simp
      · simp [e2, Ne.symm e2]
    · simp [e1, Ne.symm e1]
  · rw [Screen.cell_outside hm hin, Screen.cell_outside (Screen.shaped_flip hm r c) hin]
    have : ¬ (r' = r ∧ c' = c) := by rintro ⟨rfl, rfl⟩; exact hin ⟨hr, hc⟩
    simp [this]

/-! ## Drawing -/

/-- The canvas's screen has the canvas's edges. -/
abbrev Canvas.shaped (cv : Canvas) : Prop := cv.screen.shaped cv.height cv.width

/-- Drawing keeps the edges. -/
@[simp] theorem Canvas.plot_height (cv : Canvas) (row col : Nat) (bit : Bool) :
    (cv.plot row col bit).height = cv.height := by unfold Canvas.plot; split <;> rfl

@[simp] theorem Canvas.plot_width (cv : Canvas) (row col : Nat) (bit : Bool) :
    (cv.plot row col bit).width = cv.width := by unfold Canvas.plot; split <;> rfl

/-- One sprite cell (R151): the cell under a bit at 1 is flipped if it lies on the screen, and it is a collision if it
was on. -/
theorem Canvas.plot_spec {cv : Canvas} (hcv : cv.shaped) (row col : Nat) (bit : Bool) :
    (cv.plot row col bit).shaped ∧
      (∀ r c, (cv.plot row col bit).screen.cell r c =
        ((cv.screen.cell r c) ^^ (decide (r < cv.height ∧ c < cv.width) && (decide (r = row ∧ c = col) && bit)))) ∧
      ((cv.plot row col bit).collision = true ↔
        cv.collision = true ∨ (bit = true ∧ cv.screen.cell row col = true)) := by
  unfold Canvas.plot
  split
  · rename_i h
    obtain ⟨rfl, hr, hc⟩ := h
    refine ⟨Screen.shaped_flip hcv row col, fun r c => ?_, by simp⟩
    rw [Screen.cell_flip hcv hr hc]
    congr 1
    by_cases he : r = row ∧ c = col
    · obtain ⟨rfl, rfl⟩ := he; simp [hr, hc]
    · simp only [he, decide_false, Bool.false_and, Bool.and_false]
  · rename_i h
    refine ⟨hcv, fun r c => ?_, ?_⟩
    · have : (decide (r < cv.height ∧ c < cv.width) && (decide (r = row ∧ c = col) && bit)) = false := by
        rw [Bool.eq_false_iff]
        simp only [Bool.and_eq_true, decide_eq_true_eq, ne_eq]
        rintro ⟨⟨h1, h2⟩, ⟨rfl, rfl⟩, h3⟩
        exact h ⟨h3, h1, h2⟩
      rw [this, Bool.xor_false]
    · constructor
      · exact .inl
      · rintro (h' | ⟨hb, hc⟩)
        · exact h'
        · have := Screen.cell_outside hcv (r := row) (c := col) fun hin => h ⟨hb, hin.1, hin.2⟩
          rw [this] at hc; cases hc

/-- The part of one sprite row of the first `n` columns that falls on a cell. -/
def rowBit (row col : Nat) (b : Byte) (n r c : Nat) : Bool :=
  decide (r = row ∧ col ≤ c ∧ c < col + n) && b.getLsbD (7 - (c - col))

@[simp] theorem rowBit_zero (row col : Nat) (b : Byte) (r c : Nat) : rowBit row col b 0 r c = false := by
  unfold rowBit
  rw [decide_eq_false (by omega), Bool.false_and]

/-- One more column of a sprite row is one more cell. -/
theorem rowBit_succ (row col : Nat) (b : Byte) (n r c : Nat) :
    rowBit row col b (n + 1) r c =
      (rowBit row col b n r c ^^ (decide (r = row ∧ c = col + n) && b.getLsbD (7 - n))) := by
  unfold rowBit
  by_cases hc : c = col + n
  · subst hc; simp
  · have : (r = row ∧ col ≤ c ∧ c < col + (n + 1)) ↔ (r = row ∧ col ≤ c ∧ c < col + n) := by omega
    simp only [this, hc, and_false, decide_false, Bool.false_and, Bool.xor_false]

/-- Drawing part of a sprite, whose bits fall on the cells `bit`, says all of this: the edges and the shape stay,
exactly the cells on the screen under a bit are flipped, and there is a collision exactly when one of them was on. -/
def Canvas.Draws (cv out : Canvas) (bit : Nat → Nat → Bool) : Prop :=
  out.height = cv.height ∧ out.width = cv.width ∧ out.shaped ∧
    (∀ r c, out.screen.cell r c =
      ((cv.screen.cell r c) ^^ (decide (r < cv.height ∧ c < cv.width) && bit r c))) ∧
    (out.collision = true ↔ cv.collision = true ∨ ∃ r c, bit r c = true ∧ cv.screen.cell r c = true)

/-- Nothing drawn. -/
theorem Canvas.Draws.refl {cv : Canvas} (h : cv.shaped) {bit : Nat → Nat → Bool} (hb : ∀ r c, bit r c = false) :
    cv.Draws cv bit := ⟨rfl, rfl, h, by simp [hb], by simp [hb]⟩

/-- Two parts of a sprite that fall on different cells, drawn one after the other. -/
theorem Canvas.Draws.trans {cv mid out : Canvas} {f g fg : Nat → Nat → Bool} (h1 : cv.Draws mid f)
    (h2 : mid.Draws out g) (hfg : ∀ r c, fg r c = (f r c ^^ g r c)) (hdis : ∀ r c, f r c = true → g r c = false) :
    cv.Draws out fg := by
  obtain ⟨hh, hw, -, hs, hc⟩ := h1
  obtain ⟨kh, kw, ksh, ks, kc⟩ := h2
  refine ⟨kh.trans hh, kw.trans hw, ksh, fun r c => ?_, ?_⟩
  · rw [ks, hs, hh, hw, hfg, Bool.xor_assoc]
    congr 1
    cases decide (r < cv.height ∧ c < cv.width) <;> simp
  · have fresh : ∀ r c, g r c = true → mid.screen.cell r c = cv.screen.cell r c := by
      intro r c hg
      have : f r c = false := by
        rw [Bool.eq_false_iff]; intro hf; rw [hdis r c hf] at hg; cases hg
      rw [hs, this, Bool.and_false, Bool.xor_false]
    rw [kc, hc, or_assoc]
    refine or_congr_right ⟨?_, ?_⟩
    · rintro (⟨r, c, hf, hcell⟩ | ⟨r, c, hg, hcell⟩)
      · exact ⟨r, c, by rw [hfg, hf, hdis r c hf]; rfl, hcell⟩
      · refine ⟨r, c, ?_, by rwa [fresh r c hg] at hcell⟩
        have : f r c = false := by
          rw [Bool.eq_false_iff]; intro hf; rw [hdis r c hf] at hg; cases hg
        rw [hfg, hg, this]; rfl
    · rintro ⟨r, c, hb, hcell⟩
      rw [hfg] at hb
      cases hf : f r c with
      | true => exact .inl ⟨r, c, hf, hcell⟩
      | false =>
        rw [hf, Bool.false_xor] at hb
        exact .inr ⟨r, c, hb, by rw [fresh r c hb]; exact hcell⟩

/-- One sprite cell is a part of a sprite. -/
theorem Canvas.draws_plot {cv : Canvas} (h : cv.shaped) (row col : Nat) (bit : Bool) :
    cv.Draws (cv.plot row col bit) fun r c => decide (r = row ∧ c = col) && bit := by
  obtain ⟨h1, h2, h3⟩ := Canvas.plot_spec h row col bit
  refine ⟨cv.plot_height row col bit, cv.plot_width row col bit, h1, h2, h3.trans (or_congr_right ?_)⟩
  constructor
  · rintro ⟨hb, hc⟩; exact ⟨row, col, by simp [hb], hc⟩
  · rintro ⟨r, c, hb, hc⟩
    simp only [Bool.and_eq_true, decide_eq_true_eq] at hb
    obtain ⟨⟨rfl, rfl⟩, hb⟩ := hb
    exact ⟨hb, hc⟩

/-- The first `n` cells of a sprite row (R152 (d)). -/
theorem Canvas.draws_prefix {cv : Canvas} (h : cv.shaped) (row col : Nat) (b : Byte) (n : Nat) :
    cv.Draws ((List.range n).foldl (fun acc k => acc.plot row (col + k) (b.getLsbD (7 - k))) cv)
      (rowBit row col b n) := by
  induction n with
  | zero => exact Canvas.Draws.refl h (rowBit_zero row col b)
  | succ n ih =>
    rw [List.range_succ, List.foldl_append, List.foldl_cons, List.foldl_nil]
    refine ih.trans (Canvas.draws_plot ih.2.2.1 row (col + n) _) (rowBit_succ row col b n) fun r c hf => ?_
    simp only [rowBit, Bool.and_eq_true, decide_eq_true_eq] at hf
    rw [decide_eq_false (by omega), Bool.false_and]

/-- A whole sprite: every cell of the screen is flipped exactly where the sprite has a bit at 1, and there is a
collision exactly when one of those cells was on (R151, R152). -/
theorem Canvas.plotSprite_spec {cv : Canvas} (h : cv.shaped) (row col : Nat) (sprite : List Byte) :
    cv.Draws (cv.plotSprite row col sprite) (spriteBit row col sprite) := by
  induction sprite generalizing cv row with
  | nil => exact Canvas.Draws.refl h (by simp [spriteBit])
  | cons b rest ih =>
    have h1 := Canvas.draws_prefix h row col b 8
    refine h1.trans (ih h1.2.2.1 (row + 1)) (fun r c => ?_) fun r c hf => ?_
    · unfold spriteBit rowBit
      rcases Nat.lt_trichotomy r row with hlt | rfl | hgt
      · simp [Nat.not_le.mpr hlt, Nat.ne_of_lt hlt, show ¬ row + 1 ≤ r by omega]
      · simp
      · obtain ⟨k, rfl⟩ : ∃ k, r = row + 1 + k := ⟨r - (row + 1), by omega⟩
        simp [show row + 1 + k - row = k + 1 by omega, show ¬ row + 1 + k = row by omega,
          show row ≤ row + 1 + k by omega]
    · simp only [rowBit, Bool.and_eq_true, decide_eq_true_eq] at hf
      rw [spriteBit, decide_eq_false (by omega), Bool.false_and]

end Sys2Proof.Machine
end

