-- ==== Sys2Proof/Laws/Launch.lean ====
section
/-!
SUPPORT. The laws of the launch's memory and screen (70_reset_and_hazards.md R190).
-/

namespace Sys2Proof.Machine

/-- Writing INIT's cells keeps the canonical form. -/
theorem Memory.wf_writeCells (size : Nat) {m : Memory} (h : m.wf) (cells : List Host.Cell) :
    (Memory.writeCells size m cells).wf := by
  induction cells generalizing m with
  | nil => exact h
  | cons c rest ih =>
    unfold Memory.writeCells
    split
    · exact ih (Memory.wf_write h c.1 c.2)
    · exact ih h

/-- Writing INIT's cells lists existing addresses alone. -/
theorem Memory.within_writeCells {size : Nat} {m : Memory} (h : m.within size) (cells : List Host.Cell) :
    (Memory.writeCells size m cells).within size := by
  induction cells generalizing m with
  | nil => exact h
  | cons c rest ih =>
    unfold Memory.writeCells
    split
    · exact ih (Memory.within_write h (by assumption) c.2)
    · exact ih h

/-- An address that INIT does not name stays as it was. -/
theorem Memory.read_writeCells_outside (size : Nat) (m : Memory) {cells : List Host.Cell} {a : Nat}
    (h : ∀ c ∈ cells, c.1 ≠ a) : (Memory.writeCells size m cells).read a = m.read a := by
  induction cells generalizing m with
  | nil => rfl
  | cons c rest ih =>
    unfold Memory.writeCells
    rw [ih _ fun d hd => h d (List.mem_cons_of_mem _ hd)]
    split
    · exact Memory.read_write_ne _ _ (Ne.symm (h c (by simp)))
    · rfl

/-- An address that INIT names once reads as the byte named. -/
theorem Memory.read_writeCells {size : Nat} {m : Memory} (h : m.wf) {cells : List Host.Cell}
    (hs : ∀ c ∈ cells, c.1 < size) (hd : (cells.map Prod.fst).Nodup) {a : Nat} {b : Byte} (hc : (a, b) ∈ cells) :
    (Memory.writeCells size m cells).read a = b := by
  induction cells generalizing m with
  | nil => cases hc
  | cons c rest ih =>
    obtain ⟨k, d⟩ := c
    have hd := List.nodup_cons.mp hd
    unfold Memory.writeCells
    rw [if_pos (hs (k, d) (by simp))]
    rcases List.mem_cons.mp hc with e | hc
    · cases e
      rw [Memory.read_writeCells_outside _ _ fun c hm e => hd.1 (List.mem_map.mpr ⟨c, hm, e⟩),
        Memory.read_write_self h]
    · exact ih (Memory.wf_write h k d) (fun c hm => hs c (List.mem_cons_of_mem _ hm)) hd.2 hc

/-- The memory of zeros is canonical. -/
theorem Memory.wf_zero (size : Nat) : (Memory.zero size).wf := Memory.wf_writeBytes Memory.wf_nil _ _

/-- The memory of zeros lists existing addresses alone. -/
theorem Memory.within_zero (size : Nat) : (Memory.zero size).within size :=
  Memory.within_writeBytes (by simp) (by simp)

/-- The memory of zeros reads 0 at every address it has. -/
theorem Memory.read_zero {size a : Nat} (h : a < size) : (Memory.zero size).read a = 0 := by
  unfold Memory.zero
  by_cases hk : a < (List.replicate (min standardFont.length size) (0x00 : Byte)).length
  · have := Memory.read_writeBytes Memory.wf_nil 0 hk
    rw [Nat.zero_add] at this
    rw [this, List.getElem_replicate]
  · rw [Memory.read_writeBytes_outside _ (by omega)]
    rw [List.length_replicate] at hk
    show Memory.unlisted a = 0
    unfold Memory.unlisted
    rw [List.getElem?_eq_none (by omega)]; rfl

/-- The launch's screen has the configuration's shape (R29). -/
theorem Launch.shaped_screen (p : Launch) : p.screen.shaped p.config.screenH p.config.screenW := by
  refine ⟨by simp [Launch.screen], fun row hr => ?_⟩
  obtain ⟨r, -, rfl⟩ := List.mem_map.mp hr
  simp

/-- The cells of the launch's screen that are on are those that lie on it and that INIT names. -/
theorem Launch.cell_screen (p : Launch) (r c : Nat) :
    p.screen.cell r c = true ↔ r < p.config.screenH ∧ c < p.config.screenW ∧ (r, c) ∈ p.lit := by
  by_cases h : r < p.config.screenH ∧ c < p.config.screenW
  · simp [Screen.cell, Launch.screen, List.getD_eq_getElem?_getD, h.1, h.2]
  · rw [Screen.cell_outside p.shaped_screen h]
    constructor
    · intro hf; cases hf
    · rintro ⟨h1, h2, -⟩; exact absurd ⟨h1, h2⟩ h

end Sys2Proof.Machine
end

