-- ==== Sys2Proof/Laws/PerInstr.lean ====
section
/-!
SUPPORT. Facts about every instruction as syntax, one lemma per constructor.
Family SelectsRow: the encoded word selects the instruction's own row of the opcode map, by the match and mask columns
of 30_encoding.md R75.
-/

namespace Sys2Proof.Laws

open Sys2Proof

/-- The mask and match columns of an instruction's row (R75). -/
def tableRow : Instr → Word × Word
  | .sys _ => (0xF000, 0x0000)
  | .cls => (0xFFFF, 0x00E0)
  | .ret => (0xFFFF, 0x00EE)
  | .jmp _ => (0xF000, 0x1000)
  | .call _ => (0xF000, 0x2000)
  | .skipEImm _ _ => (0xF000, 0x3000)
  | .skipNeImm _ _ => (0xF000, 0x4000)
  | .skipEReg _ _ => (0xF00F, 0x5000)
  | .ldImm _ _ => (0xF000, 0x6000)
  | .addImm _ _ => (0xF000, 0x7000)
  | .ldReg _ _ => (0xF00F, 0x8000)
  | .or _ _ => (0xF00F, 0x8001)
  | .and _ _ => (0xF00F, 0x8002)
  | .xor _ _ => (0xF00F, 0x8003)
  | .addReg _ _ => (0xF00F, 0x8004)
  | .sub _ _ => (0xF00F, 0x8005)
  | .shr _ _ => (0xF00F, 0x8006)
  | .subn _ _ => (0xF00F, 0x8007)
  | .shl _ _ => (0xF00F, 0x800E)
  | .skipNeReg _ _ => (0xF00F, 0x9000)
  | .stI _ => (0xF000, 0xA000)
  | .jmpV0 _ => (0xF000, 0xB000)
  | .rand _ _ => (0xF000, 0xC000)
  | .draw _ _ _ => (0xF000, 0xD000)
  | .skipKp _ => (0xF0FF, 0xE09E)
  | .skipKnp _ => (0xF0FF, 0xE0A1)
  | .ldDt _ => (0xF0FF, 0xF007)
  | .ldK _ => (0xF0FF, 0xF00A)
  | .stDt _ => (0xF0FF, 0xF015)
  | .stSt _ => (0xF0FF, 0xF018)
  | .addI _ => (0xF0FF, 0xF01E)
  | .ldF _ => (0xF0FF, 0xF029)
  | .ldB _ => (0xF0FF, 0xF033)
  | .stRegs _ => (0xF0FF, 0xF055)
  | .ldRegs _ => (0xF0FF, 0xF065)

/-- A packed word under the masks of R75, in terms of its digits. -/
theorem and_op_mask (w : Word) : w &&& 0xF000 = fieldOp w ++ (0 : BitVec 12) := by
  unfold fieldOp
  apply BitVec.eq_of_getLsbD_eq
  intro i hi
  rw [BitVec.getLsbD_and, BitVec.getLsbD_append]
  interval_cases i <;> simp

theorem and_op_n_mask (w : Word) : w &&& 0xF00F = fieldOp w ++ (0 : BitVec 8) ++ fieldN w := by
  unfold fieldOp fieldN
  apply BitVec.eq_of_getLsbD_eq
  intro i hi
  rw [BitVec.getLsbD_and, BitVec.getLsbD_append, BitVec.getLsbD_append]
  interval_cases i <;> simp

theorem and_op_nn_mask (w : Word) : w &&& 0xF0FF = fieldOp w ++ (0 : BitVec 4) ++ fieldNN w := by
  unfold fieldOp fieldNN
  apply BitVec.eq_of_getLsbD_eq
  intro i hi
  rw [BitVec.getLsbD_and, BitVec.getLsbD_append, BitVec.getLsbD_append]
  interval_cases i <;> simp

/-- The encoded word, at the default configuration, selects the instruction's row (R75). -/
def SelectsRow.Statement (i : Instr) : Prop := encode {} i &&& (tableRow i).1 = (tableRow i).2

theorem SelectsRow.sys (nnn : BitVec 12) : SelectsRow.Statement (.sys nnn) := by
  unfold SelectsRow.Statement; rw [tableRow, and_op_mask]; simp [encode]

theorem SelectsRow.cls : SelectsRow.Statement .cls := by
  unfold SelectsRow.Statement; decide

theorem SelectsRow.ret : SelectsRow.Statement .ret := by
  unfold SelectsRow.Statement; decide

theorem SelectsRow.jmp (nnn : BitVec 12) : SelectsRow.Statement (.jmp nnn) := by
  unfold SelectsRow.Statement; rw [tableRow, and_op_mask]; simp [encode]

theorem SelectsRow.call (nnn : BitVec 12) : SelectsRow.Statement (.call nnn) := by
  unfold SelectsRow.Statement; rw [tableRow, and_op_mask]; simp [encode]

theorem SelectsRow.skipEImm (x : RegIx) (nn : Byte) : SelectsRow.Statement (.skipEImm x nn) := by
  unfold SelectsRow.Statement; rw [tableRow, and_op_mask]; simp [encode]

theorem SelectsRow.skipNeImm (x : RegIx) (nn : Byte) : SelectsRow.Statement (.skipNeImm x nn) := by
  unfold SelectsRow.Statement; rw [tableRow, and_op_mask]; simp [encode]

theorem SelectsRow.skipEReg (x y : RegIx) : SelectsRow.Statement (.skipEReg x y) := by
  unfold SelectsRow.Statement; rw [tableRow, and_op_n_mask]; simp [encode]

theorem SelectsRow.ldImm (x : RegIx) (nn : Byte) : SelectsRow.Statement (.ldImm x nn) := by
  unfold SelectsRow.Statement; rw [tableRow, and_op_mask]; simp [encode]

theorem SelectsRow.addImm (x : RegIx) (nn : Byte) : SelectsRow.Statement (.addImm x nn) := by
  unfold SelectsRow.Statement; rw [tableRow, and_op_mask]; simp [encode]

theorem SelectsRow.ldReg (x y : RegIx) : SelectsRow.Statement (.ldReg x y) := by
  unfold SelectsRow.Statement; rw [tableRow, and_op_n_mask]; simp [encode]

theorem SelectsRow.or (x y : RegIx) : SelectsRow.Statement (.or x y) := by
  unfold SelectsRow.Statement; rw [tableRow, and_op_n_mask]; simp [encode]

theorem SelectsRow.and (x y : RegIx) : SelectsRow.Statement (.and x y) := by
  unfold SelectsRow.Statement; rw [tableRow, and_op_n_mask]; simp [encode]

theorem SelectsRow.xor (x y : RegIx) : SelectsRow.Statement (.xor x y) := by
  unfold SelectsRow.Statement; rw [tableRow, and_op_n_mask]; simp [encode]

theorem SelectsRow.addReg (x y : RegIx) : SelectsRow.Statement (.addReg x y) := by
  unfold SelectsRow.Statement; rw [tableRow, and_op_n_mask]; simp [encode]

theorem SelectsRow.sub (x y : RegIx) : SelectsRow.Statement (.sub x y) := by
  unfold SelectsRow.Statement; rw [tableRow, and_op_n_mask]; simp [encode]

theorem SelectsRow.shr (x y : RegIx) : SelectsRow.Statement (.shr x y) := by
  unfold SelectsRow.Statement; rw [tableRow, and_op_n_mask]; simp [encode]

theorem SelectsRow.subn (x y : RegIx) : SelectsRow.Statement (.subn x y) := by
  unfold SelectsRow.Statement; rw [tableRow, and_op_n_mask]; simp [encode]

theorem SelectsRow.shl (x y : RegIx) : SelectsRow.Statement (.shl x y) := by
  unfold SelectsRow.Statement; rw [tableRow, and_op_n_mask]; simp [encode]

theorem SelectsRow.skipNeReg (x y : RegIx) : SelectsRow.Statement (.skipNeReg x y) := by
  unfold SelectsRow.Statement; rw [tableRow, and_op_n_mask]; simp [encode]

theorem SelectsRow.stI (nnn : BitVec 12) : SelectsRow.Statement (.stI nnn) := by
  unfold SelectsRow.Statement; rw [tableRow, and_op_mask]; simp [encode]

theorem SelectsRow.jmpV0 (nnn : BitVec 12) : SelectsRow.Statement (.jmpV0 nnn) := by
  unfold SelectsRow.Statement; rw [tableRow, and_op_mask]; simp [encode]

theorem SelectsRow.rand (x : RegIx) (nn : Byte) : SelectsRow.Statement (.rand x nn) := by
  unfold SelectsRow.Statement; rw [tableRow, and_op_mask]; simp [encode]

theorem SelectsRow.draw (x y : RegIx) (n : BitVec 4) : SelectsRow.Statement (.draw x y n) := by
  unfold SelectsRow.Statement; rw [tableRow, and_op_mask]; simp [encode]

theorem SelectsRow.skipKp (x : RegIx) : SelectsRow.Statement (.skipKp x) := by
  unfold SelectsRow.Statement; rw [tableRow, and_op_nn_mask]; simp [encode]

theorem SelectsRow.skipKnp (x : RegIx) : SelectsRow.Statement (.skipKnp x) := by
  unfold SelectsRow.Statement; rw [tableRow, and_op_nn_mask]; simp [encode]

theorem SelectsRow.ldDt (x : RegIx) : SelectsRow.Statement (.ldDt x) := by
  unfold SelectsRow.Statement; rw [tableRow, and_op_nn_mask]; simp [encode]

theorem SelectsRow.ldK (x : RegIx) : SelectsRow.Statement (.ldK x) := by
  unfold SelectsRow.Statement; rw [tableRow, and_op_nn_mask]; simp [encode]

theorem SelectsRow.stDt (x : RegIx) : SelectsRow.Statement (.stDt x) := by
  unfold SelectsRow.Statement; rw [tableRow, and_op_nn_mask]; simp [encode]

theorem SelectsRow.stSt (x : RegIx) : SelectsRow.Statement (.stSt x) := by
  unfold SelectsRow.Statement; rw [tableRow, and_op_nn_mask]; simp [encode]

theorem SelectsRow.addI (x : RegIx) : SelectsRow.Statement (.addI x) := by
  unfold SelectsRow.Statement; rw [tableRow, and_op_nn_mask]; simp [encode]

theorem SelectsRow.ldF (x : RegIx) : SelectsRow.Statement (.ldF x) := by
  unfold SelectsRow.Statement; rw [tableRow, and_op_nn_mask]; simp [encode]

theorem SelectsRow.ldB (x : RegIx) : SelectsRow.Statement (.ldB x) := by
  unfold SelectsRow.Statement; rw [tableRow, and_op_nn_mask]; simp [encode]

theorem SelectsRow.stRegs (x : RegIx) : SelectsRow.Statement (.stRegs x) := by
  unfold SelectsRow.Statement; rw [tableRow, and_op_nn_mask]; simp [encode]

theorem SelectsRow.ldRegs (x : RegIx) : SelectsRow.Statement (.ldRegs x) := by
  unfold SelectsRow.Statement; rw [tableRow, and_op_nn_mask]; simp [encode]

end Sys2Proof.Laws
end

