-- ==== Sys2Proof/Laws/Run.lean ====
section
/-!
SUPPORT. Everything a processor step and a step can do, said once (00_scope.md R10, 60_exceptions.md R170).
-/

namespace Sys2Proof.Machine

/-- A processor step ends at the fetch, at the decoder, or in the decoded instruction (R10, R173). -/
theorem processorStep_cases (s : State) :
    (∃ w i, s.fetchWord = .ok w ∧ Sys2Proof.decode s.config w = .ok i ∧ processorStep s = exec i s) ∨
      ∃ f, processorStep s = .next { s with status := .faulted f } := by
  unfold processorStep
  cases s.fetchWord with
  | error f => exact .inr ⟨f, rfl⟩
  | ok w =>
    cases hd : Sys2Proof.decode s.config w with
    | error r => exact .inr ⟨_, by simp only [State.orRaise_ok, hd]; rfl⟩
    | ok i => exact .inl ⟨w, i, rfl, hd, by simp only [State.orRaise_ok, hd]⟩

/-- A step has a next state only while the status is Running; it is a processor step's, after its boundary (R170). -/
theorem step_next {s t : State} (h : step s = .next t) :
    s.status = .running ∧ ∃ u, processorStep s = .next u ∧ t = u.boundary := by
  unfold step at h
  cases hs : s.status with
  | aborted nnn => rw [hs] at h; cases h
  | faulted f => rw [hs] at h; cases h
  | running =>
    rw [hs] at h
    cases hp : processorStep s with
    | next u => rw [hp] at h; exact ⟨rfl, u, rfl, (Host.Outcome.next.inj h).symm⟩
    | fault f => rw [hp] at h; cases h
    | refused r => rw [hp] at h; cases h

/-- Every state of an infinite run is Running (R170, R194). -/
theorem IsRun.running {r : Nat → State} (h : IsRun r) (n : Nat) : (r n).status = .running := (step_next (h n)).1

/-- The moment of a boundary is the one the state before the processor step names: no instruction touches the
schedule, the counter of boundaries or the configuration. -/
theorem exec_nextMoment {i : Instr} {s t : State} (h : exec i s = .next t) : t.nextMoment = s.nextMoment := by
  have W := (exec_within h).2
  have hs : t.schedule = s.schedule := W .schedule (by cases i <;> simp [writesPiece])
  have ht : t.turns = s.turns := W .turns (by cases i <;> simp [writesPiece])
  have hc : t.config = s.config := W .config (by cases i <;> simp [writesPiece])
  unfold State.nextMoment
  rw [hs, ht, hc]

end Sys2Proof.Machine
end

