-- ==== Sys2Proof/Tests/Slice0.lean ====
section
/-!
SUPPORT. The model's own tests. Every expected value comes from spec/95_test_vectors.md (the vector's name stands in
the comment) or from the encoding table of spec/30_encoding.md, never from the model. After them, for each statement
with hypotheses, a witness that meets all of them together, at the boundary values of each clause.
-/

namespace Sys2Proof.Tests

open Sys2Proof Sys2Proof.Machine

/-! ## Helpers -/

/-- The conventional launch with the vector's word at pc (95_test_vectors.md, Conventions). -/
def start (word : Nat) : State := State.reset.withFetchWord 16 word

/-- The same with pc, and the word there, elsewhere. -/
def startAt (pc : Addr) (word : Nat) : State := State.withFetchWord { State.reset with pc := pc } 16 word

/-- A state with one byte of memory changed. -/
def poke (s : State) (a : Nat) (b : Byte) : State := { s with mem := s.mem.write a b }

/-- A state with exactly these keys down. -/
def keysHeld (s : State) (ks : List Nat) : State := { s with keys := (List.range 16).map fun k => decide (k ∈ ks) }

/-- The same machine with another configuration. -/
def under (c : Config) (s : State) : State := { s with config := c }

/-- What a processor step's next state shows, if it has one. -/
def shows {α : Type} (s : State) (f : State → α) : Option α :=
  match processorStep s with
  | .next t => some (f t)
  | .fault _ => none
  | .refused _ => none

/-- The cells that are on, among those of the top left corner. -/
def corner (s : State) : List (Nat × Nat) :=
  ((List.range 6).flatMap fun r => (List.range 9).map fun c => (r, c)).filter fun p => s.screen.cell p.1 p.2

/-- A stack of n entries. -/
def deep (n : Nat) : State := { State.reset with stack := List.replicate n 0x202 }

/-! ## Well-formedness: the two words of 0NNN that are not SYS (R100) -/

theorem test_sys_of_cls_ill_formed : (Instr.sys 0x0E0).wellFormed {} = false := by decide
theorem test_sys_of_ret_ill_formed : (Instr.sys 0x0EE).wellFormed {} = false := by decide
theorem test_ret_of_cls_ill_formed : Instr.ret.wellFormed { retNNN := 0x0E0 } = false := by decide
theorem test_sys_well_formed : (Instr.sys 0x0E1).wellFormed {} = true := by decide

/-- RET_OPCODE: with another word of 0NNN for RET, 00EE is a SYS (U20). -/
theorem test_ret_opcode :
    decode { retNNN := 0x0EF } 0x00EF = .ok .ret ∧ decode { retNNN := 0x0EF } 0x00EE = .ok (.sys 0x0EE) := by decide

/-! ## Decoding: one word per instruction, written digit by digit from the match column of R75's table -/

theorem test_decode_sys : decodeTableWord 16 0x0123 = some (.sys 0x123) := by decide
theorem test_decode_cls : decodeTableWord 16 0x00E0 = some (.cls) := by decide
theorem test_decode_ret : decodeTableWord 16 0x00EE = some (.ret) := by decide
theorem test_decode_jmp : decodeTableWord 16 0x1ABC = some (.jmp 0xABC) := by decide
theorem test_decode_call : decodeTableWord 16 0x2F01 = some (.call 0xF01) := by decide
theorem test_decode_skipEImm : decodeTableWord 16 0x3A42 = some (.skipEImm 0xA 0x42) := by decide
theorem test_decode_skipNeImm : decodeTableWord 16 0x4B43 = some (.skipNeImm 0xB 0x43) := by decide
theorem test_decode_skipEReg : decodeTableWord 16 0x5120 = some (.skipEReg 0x1 0x2) := by decide
theorem test_decode_ldImm : decodeTableWord 16 0x6C99 = some (.ldImm 0xC 0x99) := by decide
theorem test_decode_addImm : decodeTableWord 16 0x7D05 = some (.addImm 0xD 0x05) := by decide
theorem test_decode_ldReg : decodeTableWord 16 0x8120 = some (.ldReg 0x1 0x2) := by decide
theorem test_decode_or : decodeTableWord 16 0x8341 = some (.or 0x3 0x4) := by decide
theorem test_decode_and : decodeTableWord 16 0x8562 = some (.and 0x5 0x6) := by decide
theorem test_decode_xor : decodeTableWord 16 0x8783 = some (.xor 0x7 0x8) := by decide
theorem test_decode_addReg : decodeTableWord 16 0x89A4 = some (.addReg 0x9 0xA) := by decide
theorem test_decode_sub : decodeTableWord 16 0x8BC5 = some (.sub 0xB 0xC) := by decide
theorem test_decode_shr : decodeTableWord 16 0x8DE6 = some (.shr 0xD 0xE) := by decide
theorem test_decode_subn : decodeTableWord 16 0x8F07 = some (.subn 0xF 0x0) := by decide
theorem test_decode_shl : decodeTableWord 16 0x812E = some (.shl 0x1 0x2) := by decide
theorem test_decode_skipNeReg : decodeTableWord 16 0x9AB0 = some (.skipNeReg 0xA 0xB) := by decide
theorem test_decode_stI : decodeTableWord 16 0xA2F0 = some (.stI 0x2F0) := by decide
theorem test_decode_jmpV0 : decodeTableWord 16 0xB300 = some (.jmpV0 0x300) := by decide
theorem test_decode_rand : decodeTableWord 16 0xC30F = some (.rand 0x3 0x0F) := by decide
theorem test_decode_draw : decodeTableWord 16 0xD7A5 = some (.draw 0x7 0xA 0x5) := by decide
theorem test_decode_skipKp : decodeTableWord 16 0xE29E = some (.skipKp 0x2) := by decide
theorem test_decode_skipKnp : decodeTableWord 16 0xE3A1 = some (.skipKnp 0x3) := by decide
theorem test_decode_ldDt : decodeTableWord 16 0xF107 = some (.ldDt 0x1) := by decide
theorem test_decode_ldK : decodeTableWord 16 0xF20A = some (.ldK 0x2) := by decide
theorem test_decode_stDt : decodeTableWord 16 0xF315 = some (.stDt 0x3) := by decide
theorem test_decode_stSt : decodeTableWord 16 0xF418 = some (.stSt 0x4) := by decide
theorem test_decode_addI : decodeTableWord 16 0xF51E = some (.addI 0x5) := by decide
theorem test_decode_ldF : decodeTableWord 16 0xF629 = some (.ldF 0x6) := by decide
theorem test_decode_ldB : decodeTableWord 16 0xF733 = some (.ldB 0x7) := by decide
theorem test_decode_stRegs : decodeTableWord 16 0xF855 = some (.stRegs 0x8) := by decide
theorem test_decode_ldRegs : decodeTableWord 16 0xF965 = some (.ldRegs 0x9) := by decide

/-- V-DEC-5 to V-DEC-9: one illegal word of each row of R76's table. -/
theorem test_illegal_words :
    decode {} 0x5121 = .error .illegal5XYN ∧ decode {} 0x9AB1 = .error .illegal9XYN ∧
    decode {} 0x8128 = .error .illegal8XYN ∧ decode {} 0xE19F = .error .illegalEXNN ∧
    decode {} 0xF100 = .error .illegalFXNN := by decide

/-- V-DEC-5: the step of an illegal word. -/
theorem test_illegal_step :
    shows (start 0x5121) (fun t => (t.status, t.pc)) =
      some (.faulted (.illegalInstruction 0x200 0x5121), 0x200) := by decide

/-- R70: one byte is no instruction. -/
theorem test_truncated : decodeBytes {} [0x12] = .error .truncated := by decide

/-! ## One step each (95_test_vectors.md, section 2) -/

/-- V-SYS-1. -/
theorem test_sys :
    shows (start 0x0123) (fun t => (t.status, t.pc)) =
      some (.aborted 0x123, 0x200) := by decide

/-- V-RET-3, the newest entry first. -/
theorem test_ret :
    shows { start 0x00EE with stack := [0x1000, 0x202] } (fun t => (t.pc, t.stack)) =
      some (0x1000, [0x202]) := by decide

/-- V-RET-2. -/
theorem test_ret_underflow :
    shows (start 0x00EE) (fun t => (t.status, t.pc)) =
      some (.faulted (.stackUnderflow 0x200), 0x200) := by decide

/-- V-JMP-4. -/
theorem test_jmp :
    shows (start 0x1203) (fun t => t.pc) =
      some 0x203 := by decide

/-- V-CALL-4. -/
theorem test_call :
    shows (startAt 0xFFE 0x2400) (fun t => (t.pc, t.stack)) =
      some (0x400, [0x1000]) := by decide

/-- V-CALL-2. -/
theorem test_call_overflow :
    shows { start 0x2200 with stack := List.replicate 16 0x300 } (fun t => (t.status, t.stack.length)) =
      some (.faulted (.stackOverflow 0x200), 16) := by decide

/-- V-JMPV0-2. -/
theorem test_jmpV0 :
    shows ((start 0xBFFF).setReg 0x0 0xFF) (fun t => (t.pc, t.reg 0xF)) =
      some (0x10FE, 0x00) := by decide

/-- V-JMPV0-3. -/
theorem test_jmpV0_not_v1 :
    shows (((start 0xB1FF).setReg 0x0 0x01).setReg 0x1 0x77) (fun t => t.pc) =
      some 0x200 := by decide

/-- V-SKE-1. -/
theorem test_skipEImm :
    shows ((start 0x3A42).setReg 0xA 0x42) (fun t => t.pc) =
      some 0x204 := by decide

/-- V-SKE-3. -/
theorem test_skipEImm_end :
    shows (startAt 0xFFE 0x3000) (fun t => t.pc) =
      some 0x1002 := by decide

/-- V-SKNE-1. -/
theorem test_skipNeImm :
    shows ((start 0x4A42).setReg 0xA 0x43) (fun t => t.pc) =
      some 0x204 := by decide

/-- V-SKNE-2. -/
theorem test_skipNeImm_equal :
    shows ((start 0x4A42).setReg 0xA 0x42) (fun t => t.pc) =
      some 0x202 := by decide

/-- V-SKER-1. -/
theorem test_skipEReg :
    shows (((start 0x5120).setReg 0x1 0x07).setReg 0x2 0x07) (fun t => t.pc) =
      some 0x204 := by decide

/-- V-SKER-2. -/
theorem test_skipEReg_unequal :
    shows (((start 0x5120).setReg 0x1 0x07).setReg 0x2 0x08) (fun t => t.pc) =
      some 0x202 := by decide

/-- V-SKNER-1. -/
theorem test_skipNeReg :
    shows (((start 0x9120).setReg 0x1 0x07).setReg 0x2 0x08) (fun t => t.pc) =
      some 0x204 := by decide

/-- V-SKNER-2. -/
theorem test_skipNeReg_equal :
    shows (((start 0x9120).setReg 0x1 0x07).setReg 0x2 0x07) (fun t => t.pc) =
      some 0x202 := by decide

/-- V-LDI-1. -/
theorem test_ldImm :
    shows (start 0x6A42) (fun t => (t.reg 0xA, t.pc)) =
      some (0x42, 0x202) := by decide

/-- V-ADDI-2. -/
theorem test_addImm_wraps :
    shows ((start 0x7A02).setReg 0xA 0xFF) (fun t => (t.reg 0xA, t.reg 0xF)) =
      some (0x01, 0x00) := by decide

/-- V-LDR-1. -/
theorem test_ldReg :
    shows (((start 0x8120).setReg 0x1 0x11).setReg 0x2 0x22) (fun t => (t.reg 0x1, t.reg 0x2)) =
      some (0x22, 0x22) := by decide

/-- V-OR-1. -/
theorem test_or :
    shows ((((start 0x8121).setReg 0x1 0xF0).setReg 0x2 0x3C).setReg 0xF 0x55) (fun t => (t.reg 0x1, t.reg 0xF)) =
      some (0xFC, 0x55) := by decide

/-- V-AND-1. -/
theorem test_and :
    shows ((((start 0x8122).setReg 0x1 0xF0).setReg 0x2 0x3C).setReg 0xF 0x55) (fun t => (t.reg 0x1, t.reg 0xF)) =
      some (0x30, 0x55) := by decide

/-- V-XOR-1. -/
theorem test_xor :
    shows ((((start 0x8123).setReg 0x1 0xF0).setReg 0x2 0x3C).setReg 0xF 0x55) (fun t => (t.reg 0x1, t.reg 0xF)) =
      some (0xCC, 0x55) := by decide

/-- V-ADD-4. -/
theorem test_addReg_carry :
    shows (((start 0x8124).setReg 0x1 0xFF).setReg 0x2 0xFF) (fun t => (t.reg 0x1, t.reg 0xF)) =
      some (0xFE, 0x01) := by decide

/-- V-ADD-6; with the other VF_WRITE_ORDER the flag stays in VF (U9). -/
theorem test_addReg_into_vf :
    shows (((start 0x8F14).setReg 0xF 0xF0).setReg 0x1 0x20) (fun t => t.reg 0xF) =
      some 0x10 ∧
    shows (under { vfWriteOrder := .resultThenFlag } (((start 0x8F14).setReg 0xF 0xF0).setReg 0x1 0x20)) (fun t => t.reg 0xF) =
      some 0x01 := by decide

/-- V-SUB-2. -/
theorem test_sub_borrow :
    shows (((start 0x8125).setReg 0x1 0x20).setReg 0x2 0x50) (fun t => (t.reg 0x1, t.reg 0xF)) =
      some (0xD0, 0x00) := by decide

/-- V-SUB-3, and the note after it: SUB_FLAG_ON_EQUAL = 0 (U15). -/
theorem test_sub_equal :
    shows (((start 0x8125).setReg 0x1 0x33).setReg 0x2 0x33) (fun t => (t.reg 0x1, t.reg 0xF)) =
      some (0x00, 0x01) ∧
    shows (under { subFlagOnEqual := false } (((start 0x8125).setReg 0x1 0x33).setReg 0x2 0x33)) (fun t => (t.reg 0x1, t.reg 0xF)) =
      some (0x00, 0x00) := by decide

/-- V-SHR-1, and the note after it: SHIFT_SOURCE = VX (U1). -/
theorem test_shr :
    shows (((start 0x8126).setReg 0x1 0xAA).setReg 0x2 0x05) (fun t => (t.reg 0x1, t.reg 0x2, t.reg 0xF)) =
      some (0x02, 0x05, 0x01) ∧
    shows (under { shiftSource := .vx } (((start 0x8126).setReg 0x1 0xAA).setReg 0x2 0x05)) (fun t => (t.reg 0x1, t.reg 0x2, t.reg 0xF)) =
      some (0x55, 0x05, 0x00) := by decide

/-- V-SHR-7. -/
theorem test_shr_from_vf :
    shows ((start 0x80F6).setReg 0xF 0x03) (fun t => (t.reg 0x0, t.reg 0xF)) =
      some (0x01, 0x01) := by decide

/-- V-SUBN-3, and the note after it: SUB_FLAG_ON_EQUAL = 0 (U15). -/
theorem test_subn_equal :
    shows (((start 0x8127).setReg 0x1 0x33).setReg 0x2 0x33) (fun t => (t.reg 0x1, t.reg 0xF)) =
      some (0x00, 0x01) ∧
    shows (under { subFlagOnEqual := false } (((start 0x8127).setReg 0x1 0x33).setReg 0x2 0x33)) (fun t => (t.reg 0x1, t.reg 0xF)) =
      some (0x00, 0x00) := by decide

/-- V-SUBN-5. -/
theorem test_subn_into_vf :
    shows (((start 0x8F17).setReg 0xF 0x10).setReg 0x1 0x20) (fun t => t.reg 0xF) =
      some 0x10 := by decide

/-- V-SHL-1, and the note after it: SHIFT_SOURCE = VX (U1). -/
theorem test_shl :
    shows (((start 0x812E).setReg 0x1 0x11).setReg 0x2 0x81) (fun t => (t.reg 0x1, t.reg 0x2, t.reg 0xF)) =
      some (0x02, 0x81, 0x01) ∧
    shows (under { shiftSource := .vx } (((start 0x812E).setReg 0x1 0x11).setReg 0x2 0x81)) (fun t => (t.reg 0x1, t.reg 0x2, t.reg 0xF)) =
      some (0x22, 0x81, 0x00) := by decide

/-- V-SHL-5. -/
theorem test_shl_into_vf :
    shows ((start 0x8F1E).setReg 0x1 0xC0) (fun t => t.reg 0xF) =
      some 0x80 := by decide

/-- V-RAND-2: with mask 0 whatever byte is drawn leaves 0. -/
theorem test_rand_masked : shows ((start 0xC300).setReg 0x3 0x55) (fun t => t.reg 0x3) = some 0x00 := by
  have h : shows ((start 0xC300).setReg 0x3 0x55) (fun t => t.reg 0x3) = some (Config.freeByte 0 &&& 0x00) := rfl
  rw [h]; simp

/-- V-STI-2. -/
theorem test_stI :
    shows (start 0xAFFF) (fun t => (t.i, t.pc)) =
      some (0x0FFF, 0x202) := by decide

/-- V-ADDIX-3; with ADDR_REG_WIDTH = 12 I wraps to I mod 0x1000 (U10). -/
theorem test_addI_range :
    shows { (start 0xF21E).setReg 0x2 0xFF with i := 0x0F01 } (fun t => (t.i, t.reg 0xF)) =
      some (0x1000, 0x01) ∧
    shows (under { addrWidth := .bits12 } { (start 0xF21E).setReg 0x2 0xFF with i := 0x0F01 }) (fun t => (t.i, t.reg 0xF)) =
      some (0x0000, 0x01) := by decide

/-- V-ADDIX-5. -/
theorem test_addI_of_vf :
    shows { (start 0xFF1E).setReg 0xF 0x07 with i := 0x0300 } (fun t => (t.i, t.reg 0xF)) =
      some (0x0307, 0x00) := by decide

/-- V-LDF-3. -/
theorem test_ldF :
    shows ((start 0xF429).setReg 0x4 0x0F) (fun t => t.i) =
      some 0x004B := by decide

/-- V-LDF-4. -/
theorem test_ldF_bad_digit :
    shows ((start 0xF429).setReg 0x4 0x10) (fun t => (t.status, t.i)) =
      some (.faulted (.badFontDigit 0x200 0x10), 0x0000) := by decide

/-- V-BCD-1. -/
theorem test_ldB :
    shows { (start 0xF533).setReg 0x5 0x9C with i := 0x0300 } (fun t => (t.mem.readBytes 0x300 3, t.i)) =
      some ([0x01, 0x05, 0x06], 0x0300) := by decide

/-- V-BCD-7. -/
theorem test_ldB_out_of_range :
    shows { (start 0xF533).setReg 0x5 0x0A with i := 0x0FFE } (fun t => (t.status, t.mem.readBytes 0xFFE 2)) =
      some (.faulted (.addressOutOfRange 0x200 0x1000), [0x00, 0x00]) := by decide

/-- V-STR-1, less a register. -/
theorem test_stRegs :
    shows { (((start 0xF155).setReg 0x0 0x11).setReg 0x1 0x22).setReg 0x2 0x33 with i := 0x0400 } (fun t => (t.mem.readBytes 0x400 3, t.i)) =
      some ([0x11, 0x22, 0x00], 0x0402) := by decide

/-- V-STR-3. -/
theorem test_stRegs_out_of_range :
    shows { start 0xF155 with i := 0x0FFF } (fun t => (t.status, t.i)) =
      some (.faulted (.addressOutOfRange 0x200 0x1000), 0x0FFF) := by decide

/-- V-LDR-M6. -/
theorem test_ldRegs :
    shows { start 0xF165 with i := 0x0200 } (fun t => (t.reg 0x0, t.reg 0x1, t.i)) =
      some (0xF1, 0x65, 0x0202) := by decide

/-- V-LDR-M5. -/
theorem test_ldRegs_out_of_range :
    shows { start 0xF065 with i := 0x1234 } (fun t => t.status) =
      some (.faulted (.addressOutOfRange 0x200 0x1234)) := by decide

/-- V-CLS-1, one cell on. -/
theorem test_cls :
    shows { (start 0x00E0).setReg 0xF 0x01 with screen := (Screen.blank 32 64).flip 0 0 } (fun t => (corner t, t.reg 0xF)) =
      some ([], 0x01) := by decide

/-- V-DRW-6: the start is reduced modulo the screen. -/
theorem test_draw_glyph :
    shows { ((start 0xD015).setReg 0x0 0x42).setReg 0x1 0x21 with i := 0x0005 } (fun t => (corner t, t.reg 0xF)) =
      some ([(1, 4), (2, 3), (2, 4), (3, 4), (4, 4), (5, 3), (5, 4), (5, 5)], 0x00) := by decide

/-- V-DRW-9. -/
theorem test_draw_collision :
    shows { poke (start 0xD011) 0x300 0xC0 with i := 0x0300, screen := (Screen.blank 32 64).flip 0 1 } (fun t => (corner t, t.reg 0xF)) =
      some ([(0, 0)], 0x01) := by decide

/-- V-SKP-1. -/
theorem test_skipKp :
    shows (keysHeld ((start 0xE29E).setReg 0x2 0x05) [5]) (fun t => t.pc) =
      some 0x204 := by decide

/-- V-SKP-3. -/
theorem test_skipKp_bad_key :
    shows ((start 0xE29E).setReg 0x2 0x10) (fun t => t.status) =
      some (.faulted (.badKeyIndex 0x200 0x10)) := by decide

/-- V-SKNP-2. -/
theorem test_skipKnp :
    shows (keysHeld ((start 0xE2A1).setReg 0x2 0x05) [5]) (fun t => t.pc) =
      some 0x202 := by decide

/-- V-SKNP-3. -/
theorem test_skipKnp_bad_key :
    shows ((start 0xE2A1).setReg 0x2 0xFF) (fun t => t.status) =
      some (.faulted (.badKeyIndex 0x200 0xFF)) := by decide

/-- V-LDDT-1. -/
theorem test_ldDt :
    shows { start 0xF307 with dt := 0x3C } (fun t => (t.reg 0x3, t.dt, t.pc)) =
      some (0x3C, 0x3C, 0x202) := by decide

/-- V-LDK-1 and V-LDK-2: held with no key down; key 0xB down. -/
theorem test_ldK :
    shows (start 0xF60A) (fun t => (t.pc, t.reg 0x6, t.status)) = some (0x200, 0x00, .running) ∧
    shows (keysHeld (start 0xF60A) [0xB]) (fun t => (t.pc, t.reg 0x6)) = some (0x202, 0x0B) := by decide

/-- The other WAIT_KEY_MODEs (U13, log 35): with press a key down at the first try does not end the wait, a key that has
gone down since the last try does; with release one that has gone up. -/
theorem test_ldK_modes :
    shows (under { waitKeyMode := .press } (keysHeld (start 0xF60A) [0xB])) (fun t => (t.pc, t.waiting.isSome)) =
      some (0x200, true) ∧
    shows (under { waitKeyMode := .press } { keysHeld (start 0xF60A) [0xB] with waiting := some [] })
      (fun t => (t.pc, t.reg 0x6, t.waiting)) = some (0x202, 0x0B, none) ∧
    shows (under { waitKeyMode := .release } { start 0xF60A with waiting := some [false, true] })
      (fun t => (t.pc, t.reg 0x6, t.waiting)) = some (0x202, 0x01, none) := by decide

/-- V-STDT-2. -/
theorem test_stDt :
    shows { start 0xF315 with dt := 0x20 } (fun t => (t.dt, t.pc)) =
      some (0x00, 0x202) := by decide

/-- V-STST-1. -/
theorem test_stSt :
    shows ((start 0xF318).setReg 0x3 0x08) (fun t => (t.st, t.pc)) =
      some (0x08, 0x202) := by decide

/-! ## Assembler lines (R79) -/

/-- The source comes first, the destination last, but in DRAW's line. -/
theorem test_asm_lines :
    (Instr.sub 0x1 0x2).asmLine = ⟨"sub", [.reg 0x2, .reg 0x1]⟩ ∧ (Instr.stI 0x300).asmLine = ⟨"mov", [.addr 0x300, .index]⟩ ∧
    (Instr.draw 0x1 0x2 0x5).asmLine = ⟨"draw", [.reg 0x1, .reg 0x2, .number 5]⟩ := by decide

/-! ## Fetch, timers, memory, the host's questions -/

/-- V-FET-2. -/
theorem test_fetch_past_end :
    shows { State.reset with pc := 0x0FFF } (fun t => (t.status, t.pc)) =
      some (.faulted (.fetchOutOfRange 0xFFF), 0xFFF) := by decide

/-- V-FET-4: an odd pc is fetched from; where REQUIRE_EVEN_PC is true it is not (U17, log 28). -/
theorem test_fetch_odd :
    shows (startAt 0x201 0x6007) (fun t => (t.reg 0x0, t.pc)) = some (0x07, 0x203) ∧
    shows (under { requireEvenPc := true } (startAt 0x201 0x6007)) (fun t => t.status) =
      some (.faulted (.oddFetch 0x201)) := by decide

/-- MEM_SIZE, STACK_DEPTH, NUM_KEYS, FONT_BASE and the screen's size, each at another value. -/
theorem test_sizes :
    shows (under { memSize := 0x201 } (start 0x00E0)) (fun t => t.status) = some (.faulted (.fetchOutOfRange 0x200)) ∧
    shows (under { stackDepth := 1 } { start 0x2300 with stack := [0x202] }) (fun t => t.status) =
      some (.faulted (.stackOverflow 0x200)) ∧
    shows (under { numKeys := 8 } ((start 0xE29E).setReg 0x2 0x08)) (fun t => t.status) =
      some (.faulted (.badKeyIndex 0x200 0x08)) ∧
    shows (under { fontBase := 0x050 } ((start 0xF429).setReg 0x4 0x0A)) (fun t => t.i) = some 0x0082 ∧
    shows (under { screenW := 2, screenH := 1 } (start 0x00E0)) (fun t => t.screen) = some [[false, false]] := by decide

/-- V-TICK-1, V-TICK-2. -/
theorem test_ticks :
    ({ State.reset with dt := 0x02 } : State).tick.dt = 0x01 ∧ ({ State.reset with dt := 0x02 } : State).tick.st = 0x00 ∧
    ({ State.reset with st := 0x01 } : State).tick.toneSounds = false := by decide

/-- The tone sounds while ST is not 0 (R179, V-TICK-2). -/
theorem test_tone :
    ({ State.reset with st := 0x02 } : State).tick.toneSounds = true ∧ State.reset.toneSounds = false := by decide

/-- The canonical form refuses a cell that lists what is unlisted, and disorder; an address that does not exist is not
within the memory. -/
theorem test_memory_form :
    State.reset.mem.wf ∧ Memory.wf [(0x003, 0x55), (0x300, 0x04)] ∧ ¬ Memory.wf [(0x300, 0x00)] ∧
    ¬ Memory.wf [(0x301, 0x01), (0x300, 0x01)] ∧ ¬ Memory.within [(0x1000, 0x01)] 4096 := by decide

/-- A write of the reset contents removes the entry (R56: the byte at 0x000 is 0xF0). -/
theorem test_write_removes : (Memory.write [(0x000, 0x11)] 0x000 0xF0) = [] := by decide

/-- Bare reset: 0x200 holds 0x0000, which is SYS 0 (V-SYS-2). -/
theorem test_bare_reset : shows State.reset (fun t => t.status) = some (.aborted 0x000) := by decide

/-- The instruction that withFetchWord places is the one the very next step runs. -/
theorem test_step_after_reset : step (start 0x6A42) = thenBoundary (exec (.ldImm 0xA 0x42) (start 0x6A42)) := rfl

/-- Once the run is over a step has no next state (R170). -/
theorem test_step_after_abort :
    step { State.reset with status := .aborted 0x123 } = .fault (.runAborted 0x123) := rfl

/-! ## Witnesses: each statement's hypotheses met together -/

theorem witness_DecodeEncodeRoundTrip :
    (Instr.sys 0xFFF).wellFormed {} = true ∧ (Instr.draw 0xF 0xF 0xF).wellFormed {} = true ∧
    Instr.ret.wellFormed { retNNN := 0x000 } = true := by decide

theorem witness_EncodeDecodeEveryWord :
    decode {} 0x0FFF = .ok (.sys 0xFFF) ∧ decode {} 0xF065 = .ok (.ldRegs 0x0) ∧
    decode { retNNN := 0x000 } 0x0000 = .ok .ret := by decide

theorem witness_IllegalWordsExactly : (∃ r, decode {} 0xF1FF = .error r) ∧ fieldOp 0xF1FF = 0xF := by
  exact ⟨⟨_, rfl⟩, by decide⟩

/-- At the last address an instruction can be fetched from. -/
theorem witness_StepRunsDecodedInstruction :
    (startAt 0xFFE 0x2400).safe ∧ (startAt 0xFFE 0x2400).canFetch ∧
    decodeBytes (startAt 0xFFE 0x2400).config [(startAt 0xFFE 0x2400).mem.read 0xFFE, (startAt 0xFFE 0x2400).mem.read 0xFFF] =
      .ok (.call 0x400, []) := by decide

/-- An odd pc at the default, and an even one where REQUIRE_EVEN_PC is true. -/
theorem witness_FetchIsBigEndian :
    ((startAt 0xFFD 0x1234).pc.toNat + 1 < (startAt 0xFFD 0x1234).config.memSize ∧
      (startAt 0xFFD 0x1234).config.requireEvenPc = false) ∧
    (under { requireEvenPc := true } (startAt 0xFFE 0x1234)).pc.toNat % 2 = 0 := by decide

/-- The first pc past the end, and the last odd pc before it with REQUIRE_EVEN_PC true. -/
theorem witness_FetchPastEndFaults :
    (({ State.reset with pc := 0xFFF } : State).safe ∧
      ({ State.reset with pc := 0xFFF } : State).config.memSize ≤ ({ State.reset with pc := 0xFFF } : State).pc.toNat + 1) ∧
    ((under { requireEvenPc := true } (startAt 0xFFD 0x1234)).safe ∧ (0xFFD : Nat) + 1 < 4096 ∧
      (under { requireEvenPc := true } (startAt 0xFFD 0x1234)).pc.toNat % 2 = 1) := by decide

theorem witness_IllegalWordEndsRun :
    (start 0x8128).safe ∧ (start 0x8128).fetchWord = .ok 0x8128 ∧ decode (start 0x8128).config 0x8128 = .error .illegal8XYN := by decide

theorem witness_SysAborts : fieldOp 0x0FFF = 0x0 ∧ (0x0FFF : Word) ≠ 0x00E0 ∧ (0x0FFF : Word) ≠ Config.retWord {} := by
  decide

theorem witness_RetPops :
    ({} : Config).retNNN ≠ 0x0E0 ∧ ({ State.reset with stack := [0x202] } : State).stack = [0x202] ∧
    State.reset.stack = [] := ⟨by decide, rfl, rfl⟩

theorem witness_JmpLoadsPc : fieldOp 0x1FFF = 0x1 := by decide

theorem witness_CallPushesReturn : 
    fieldOp 0x2FFF = 0x2 ∧ (deep 15).stack.length < (deep 15).config.stackDepth ∧
    (deep 16).config.stackDepth ≤ (deep 16).stack.length := by decide

theorem witness_JmpV0Adds : fieldOp 0xBFFF = 0xB ∧ State.reset.config.addrWidth = .bits16 := by decide

theorem witness_CallThenRetReturns :
    (deep 15).stack.length < (deep 15).config.stackDepth ∧
    ({ deep 15 with stack := 0x202 :: (deep 15).stack } : State).stack = (deep 16).stack := by
  decide

theorem witness_SkipImmediate : fieldOp 0x3FFF = 0x3 ∧ fieldOp 0x4000 = 0x4 := by decide

theorem witness_SkipRegister : fieldOp 0x5FF0 = 0x5 ∧ fieldN 0x5FF0 = 0x0 ∧ fieldOp 0x9000 = 0x9 ∧ fieldN 0x9000 = 0x0 := by
  decide

theorem witness_LoadImmediateAndRegister : fieldOp 0x6FFF = 0x6 ∧ fieldOp 0x8FF0 = 0x8 ∧ fieldN 0x8FF0 = 0x0 := by decide

theorem witness_AddImmediateWraps : fieldOp 0x7FFF = 0x7 := by decide

theorem witness_BitwiseOperations :
    fieldOp 0x8FF1 = 0x8 ∧ fieldN 0x8FF1 = 0x1 ∧ fieldN 0x8FF2 = 0x2 ∧ fieldN 0x8FF3 = 0x3 ∧ (7 : Nat) < 8 := by decide

/-- Both destinations, V[X] apart from VF and VF itself, and for the latter both orders of the two writes. -/
theorem witness_AddRegSumAndCarry :
    fieldOp 0x8EF4 = 0x8 ∧ fieldN 0x8EF4 = 0x4 ∧ fieldX 0x8EF4 ≠ 0xF ∧ fieldX 0x8F14 = 0xF ∧
    State.reset.config.vfWriteOrder = .flagThenResult ∧
    (under { vfWriteOrder := .resultThenFlag } State.reset).config.vfWriteOrder = .resultThenFlag := by decide

theorem witness_SubDifferenceAndBorrow : fieldOp 0x8EF5 = 0x8 ∧ fieldN 0x8EF5 = 0x5 ∧ fieldX 0x8EF5 ≠ 0xF := by decide

theorem witness_SubnDifferenceAndBorrow : fieldOp 0x8EF7 = 0x8 ∧ fieldN 0x8EF7 = 0x7 ∧ fieldX 0x8EF7 ≠ 0xF := by decide

theorem witness_ShrResultAndBit : fieldOp 0x8EF6 = 0x8 ∧ fieldN 0x8EF6 = 0x6 ∧ fieldX 0x8EF6 ≠ 0xF := by decide

theorem witness_ShlResultAndBit : fieldOp 0x8EFE = 0x8 ∧ fieldN 0x8EFE = 0xE ∧ fieldX 0x8EFE ≠ 0xF := by decide

theorem witness_RandMasksFreeByte : fieldOp 0xCFFF = 0xC := by decide

theorem witness_StISetsIndex : fieldOp 0xAFFF = 0xA := by decide

theorem witness_AddISumAndRangeFlag : fieldOp 0xFF1E = 0xF ∧ fieldNN 0xFF1E = 0x1E := by decide

theorem witness_LdFGlyphAddress :
    fieldOp 0xF429 = 0xF ∧ fieldNN 0xF429 = 0x29 ∧
    ((State.reset.setReg 0x4 0x0F).reg 0x4).toNat ≤ 0xF ∧ 0xF < ((State.reset.setReg 0x4 0x10).reg 0x4).toNat := by decide

/-- The last base the digits fit at, and the first they do not. -/
theorem witness_LdBDigits :
    fieldOp 0xF533 = 0xF ∧ fieldNN 0xF533 = 0x33 ∧ State.reset.mem.wf ∧
    ({ State.reset with i := 0xFFD } : State).base + 2 < 4096 ∧
    4096 ≤ ({ State.reset with i := 0xFFE } : State).base + 2 := by decide

/-- The last base sixteen registers fit at, and the first they do not. -/
theorem witness_StRegsStores :
    fieldOp 0xFF55 = 0xF ∧ fieldNN 0xFF55 = 0x55 ∧ State.reset.mem.wf ∧
    ({ State.reset with i := 0xFF0 } : State).base + (0xF : RegIx).toNat < 4096 ∧
    4096 ≤ ({ State.reset with i := 0xFF1 } : State).base + (0xF : RegIx).toNat := by decide

theorem witness_LdRegsLoads :
    fieldOp 0xFF65 = 0xF ∧ fieldNN 0xFF65 = 0x65 ∧
    ({ State.reset with i := 0xFFF } : State).base + (0x0 : RegIx).toNat < 4096 ∧
    4096 ≤ ({ State.reset with i := 0x1000 } : State).base + (0x0 : RegIx).toNat := by decide

/-- ST_REGS at the last base, and the state after it as the second state of the statement. -/
theorem witness_StoreThenLoadRegisters :
    State.reset.mem.wf ∧ ({ State.reset with i := 0xFF0 } : State).base + (0xF : RegIx).toNat < 4096 ∧
    ({ State.reset with i := 0xFF0, mem := [(0xFF0, 0x11)] } : State).i = ({ State.reset with i := 0xFF0 } : State).i := by
  decide

/-- The last base a sprite fits at, no sprite at all beyond the end of memory, and the first base it does not fit at. -/
theorem witness_DrawFlipsCells :
    fieldOp 0xD01F = 0xD ∧
    ({ State.reset with i := 0xFF1 } : State).base + (0xF : BitVec 4).toNat - 1 < 4096 ∧
    ((0x0 : BitVec 4) = 0 ∧ 4096 ≤ ({ State.reset with i := 0x1000 } : State).base) ∧
    ((0xF : BitVec 4) ≠ 0 ∧ 4096 ≤ ({ State.reset with i := 0xFF2 } : State).base + (0xF : BitVec 4).toNat - 1) ∧
    ({ State.reset with i := 0xFF1 } : State).shaped :=
  ⟨by decide, by decide, by decide, by decide, Screen.shaped_blank _ _⟩

/-- V-DRW-3: with the sprite byte 0x81 the cells (0, 0) and (0, 7) lie under a bit, (0, 1) does not. -/
theorem witness_DrawnAt :
    DrawnAt { poke State.reset 0x300 0x81 with i := 0x300 } 0x0 0x1 0x1 0 0 ∧
    DrawnAt { poke State.reset 0x300 0x81 with i := 0x300 } 0x0 0x1 0x1 0 7 := by
  exact ⟨⟨by decide, by decide, 0, 0, by decide, by decide, by decide, by decide, by decide⟩,
    ⟨by decide, by decide, 0, 7, by decide, by decide, by decide, by decide, by decide⟩⟩

/-- The two clauses on VF of one draw: a cell under a bit that is on, and every cell under a bit off. -/
theorem witness_DrawFlipsCells_flag :
    (∃ r c, DrawnAt { poke State.reset 0x300 0x81 with i := 0x300 } 0x0 0x1 0x1 r c ∧
      ((Screen.blank 32 64).flip 0 0).cell r c = true) ∧
    ∀ r c, DrawnAt { poke State.reset 0x300 0x81 with i := 0x300 } 0x0 0x1 0x1 r c →
      State.reset.screen.cell r c = false :=
  ⟨⟨0, 0, witness_DrawnAt.1, by decide⟩, fun r c _ => Screen.cell_blank _ _ r c⟩

/-- The state after the first draw meets what the statement asks of the second draw's state. -/
theorem witness_DrawTwiceRestores :
    State.reset.shaped ∧
    ((0x5 : BitVec 4) = 0 ∨ State.reset.base + (0x5 : BitVec 4).toNat - 1 < State.reset.config.memSize) ∧
    ∃ t, exec (.draw 0x0 0x1 0x5) State.reset = .next t ∧ t.config = State.reset.config ∧ t.i = State.reset.i ∧
      (∀ a, t.mem.read a = State.reset.mem.read a) ∧ t.reg 0x0 = State.reset.reg 0x0 ∧ t.reg 0x1 = State.reset.reg 0x1 :=
  ⟨Screen.shaped_blank _ _, by decide, _, rfl, rfl, rfl, fun _ => rfl, by decide, by decide⟩

/-- The second draw's two clauses on VF: V-DRW-1 has a cell off under a bit, and a screen with every cell on has none. -/
theorem witness_DrawTwiceRestores_flag :
    (∃ r c, DrawnAt State.reset 0x0 0x1 0x5 r c ∧ State.reset.screen.cell r c = false) ∧
    ∀ r c, DrawnAt { State.reset with screen := List.replicate 32 (List.replicate 64 true) } 0x0 0x1 0x5 r c →
      Screen.cell (List.replicate 32 (List.replicate 64 true)) r c = true :=
  ⟨⟨0, 0, ⟨by decide, by decide, 0, 0, by decide, by decide, by decide, by decide, by decide⟩, by decide⟩,
    fun r c h => by
      have h1 : r < 32 := h.1
      have h2 : c < 64 := h.2.1
      simp only [Screen.cell, List.getD_eq_getElem?_getD, List.getElem?_replicate, h1, h2, if_true, Option.getD_some]⟩

theorem witness_SkipOnKey :
    fieldOp 0xE29E = 0xE ∧ fieldNN 0xE29E = 0x9E ∧ fieldOp 0xE2A1 = 0xE ∧ fieldNN 0xE2A1 = 0xA1 ∧
    ((State.reset.setReg 0x2 0x0F).reg 0x2).toNat < State.reset.config.numKeys ∧
    State.reset.config.numKeys ≤ ((State.reset.setReg 0x2 0x10).reg 0x2).toNat := by decide

theorem witness_LdDtReadsTimer : fieldOp 0xF307 = 0xF ∧ fieldNN 0xF307 = 0x07 := by decide

/-- No key down, and key 0xF down. -/
theorem witness_LdKWaitsForKey :
    fieldOp 0xF60A = 0xF ∧ fieldNN 0xF60A = 0x0A ∧ State.reset.config.waitKeyMode = .level ∧
    (∀ k, k < 16 → State.reset.keyPressed k = false) ∧
    ∃ k, k < 16 ∧ (keysHeld State.reset [0xF]).keyPressed k = true :=
  ⟨by decide, by decide, rfl, by decide, 0xF, by decide, by decide⟩

/-- In the other modes: a first try, which no key ends, then a key that has gone down, or up, since the last try. -/
theorem witness_LdKWaitsForKey_modes :
    (∀ k, ¬ EndsWait (under { waitKeyMode := .press } (keysHeld State.reset [0xF])) k) ∧
    EndsWait (under { waitKeyMode := .press } { keysHeld State.reset [0xF] with waiting := some [] }) 0xF ∧
    EndsWait (under { waitKeyMode := .release } { State.reset with waiting := some [true] }) 0x0 := by
  refine ⟨fun k h => ?_, ⟨by decide, by decide, [], rfl, by decide⟩, ⟨by decide, by decide, [true], rfl, by decide⟩⟩
  obtain ⟨-, -, b, hb, -⟩ := h
  cases hb

theorem witness_SetTimers :
    fieldOp 0xF315 = 0xF ∧ fieldNN 0xF315 = 0x15 ∧ fieldOp 0xF318 = 0xF ∧ fieldNN 0xF318 = 0x18 := by decide

/-- A self-jump (V-JMP-2) with DT = 3, and three ticks scheduled at the first boundary. -/
def ticking : State := { start 0x1200 with dt := 0x03, schedule := [⟨3, List.replicate 16 false⟩] }

/-- What a self-jump's run never leaves. -/
def looping (s : State) : Prop :=
  s.pc = 0x200 ∧ s.mem = ticking.mem ∧ s.status = .running ∧ s.config = {}

theorem looping_fetch {s : State} (h : looping s) : s.fetchWord = .ok 0x1200 := by
  have hf : ticking.fetchWord = .ok 0x1200 := by decide
  rw [← hf]; simp only [State.fetchWord, State.oddRefused, h.1, h.2.1, h.2.2.2]; rfl

theorem looping_step {s : State} (h : looping s) : step s = .next s.boundary := by
  have hd : Sys2Proof.decode {} 0x1200 = .ok (.jmp 0x200) := by decide
  have he : exec (.jmp 0x200) s = .next s := by
    have : (immAddr 0x200) = s.pc := h.1.symm
    simp only [exec, execJmp, this]
  simp only [step, h.2.2.1, processorStep, looping_fetch h, State.orRaise_ok, h.2.2.2, hd, he, thenBoundary]

theorem looping_boundary {s : State} (h : looping s) : looping s.boundary := by
  rw [s.boundary_running h.2.2.1]; exact h

/-- The run from there. -/
def tickingRun (n : Nat) : State := State.boundary^[n] ticking

theorem tickingRun_looping (n : Nat) : looping (tickingRun n) := by
  induction n with
  | zero => exact ⟨rfl, rfl, rfl, rfl⟩
  | succ n ih => rw [tickingRun, Function.iterate_succ_apply']; exact looping_boundary ih

theorem tickingRun_dt (n : Nat) : (tickingRun (n + 1)).dt = 0 := by
  induction n with
  | zero => rfl
  | succ n ih =>
    have hz : ∀ (k : Nat) (s : State), s.dt = 0 → (s.ticks k).dt = 0 := by
      intro k
      induction k with
      | zero => exact fun s h => h
      | succ k ihk => exact fun s h => ihk s.tick (by simp [h, countDown])
    have hs := State.boundary_running (tickingRun (n + 1)) (tickingRun_looping _).2.2.1
    rw [tickingRun, Function.iterate_succ_apply', ← tickingRun, hs]
    exact hz _ _ ih

/-- An infinite run with DT = 3 at its start, on which the timer agent is fair and ST_DT is never run. -/
theorem witness_TicksCountDownToZero :
    IsRun tickingRun ∧ TimerFair tickingRun ∧ NeverSetsDelay tickingRun 0 ∧ (tickingRun 0).dt.toNat = 3 := by
  refine ⟨fun n => ?_, fun n h => ?_, fun m _ w x hw hd => ?_, rfl⟩
  · rw [looping_step (tickingRun_looping n), tickingRun, tickingRun, Function.iterate_succ_apply']
  · cases n with
    | zero => exact ⟨0, Nat.le_refl 0, by decide⟩
    | succ n => rw [tickingRun_dt] at h; exact absurd h (by decide)
  · rw [looping_fetch (tickingRun_looping m)] at hw
    cases hw
    have hj : Sys2Proof.decode {} 0x1200 = .ok (.jmp 0x200) := by decide
    rw [(tickingRun_looping m).2.2.2, hj] at hd
    cases hd

theorem witness_ResetIsConventionalLaunch : 79 < standardFont.length ∧ standardFont.length ≤ 80 := by decide

/-- Running with nothing scheduled, running with a scheduled moment, and ended. -/
theorem witness_BoundaryTouchesTimersAndKeys :
    State.reset.safe ∧
    (({ State.reset with schedule := [⟨3, List.replicate 16 true⟩] } : State).safe ∧
      ({ State.reset with schedule := [⟨3, List.replicate 16 true⟩] } : State).schedule =
        [⟨3, List.replicate 16 true⟩]) ∧
    ¬ ({ State.reset with status := .aborted 0 } : State).safe := by decide

theorem witness_StepHasNextState : State.reset.safe := by decide

theorem witness_EndedRunNeverResumes :
    ¬ ({ State.reset with status := .faulted (.stackUnderflow 0x200) } : State).safe := by decide

/-- A step that raises a fault: V-RET-2. -/
theorem witness_FaultsOnlyWhereListed :
    step (start 0x00EE) = .next { start 0x00EE with status := .faulted (.stackUnderflow 0x200) } := rfl

/-- ADD_REG with a carry changes VF. -/
theorem witness_FlagWriters :
    ∃ t, exec (.addReg 0x1 0x2) ((State.reset.setReg 0x1 0xFF).setReg 0x2 0x01) = .next t ∧
      t.reg 0xF ≠ ((State.reset.setReg 0x1 0xFF).setReg 0x2 0x01).reg 0xF :=
  ⟨_, rfl, by decide⟩

/-- ST_REGS changes a byte. -/
theorem witness_MemoryWriters :
    ∃ t, exec (.stRegs 0x0) { State.reset.setReg 0x0 0x11 with i := 0x300 } = .next t ∧
      ∃ a, t.mem.read a ≠ State.reset.mem.read a :=
  ⟨_, rfl, 0x300, by decide⟩

/-- CLS changes a screen with a cell on. -/
theorem witness_ScreenWriters :
    ∃ t, exec .cls { State.reset with screen := (Screen.blank 32 64).flip 0 0 } = .next t ∧
      t.screen ≠ (Screen.blank 32 64).flip 0 0 :=
  ⟨_, rfl, fun h => absurd (congrArg (fun m : Screen => m.cell 0 0) h) (by decide)⟩

/-- ST_I, CALL, ST_DT and ST_ST each change their register. -/
theorem witness_SpecialRegisterWriters :
    (∃ t, exec (.stI 0x300) State.reset = .next t ∧ t.i ≠ State.reset.i) ∧
    (∃ t, exec (.call 0x300) State.reset = .next t ∧ t.stack ≠ State.reset.stack) ∧
    (∃ t, exec (.stDt 0x0) (State.reset.setReg 0x0 0x03) = .next t ∧ t.dt ≠ State.reset.dt) ∧
    (∃ t, exec (.stSt 0x0) (State.reset.setReg 0x0 0x03) = .next t ∧ t.st ≠ State.reset.st) :=
  ⟨⟨_, rfl, by decide⟩, ⟨_, rfl, by decide⟩, ⟨_, rfl, by decide⟩, ⟨_, rfl, by decide⟩⟩

theorem witness_PcDiverters : State.reset.safe ∧ exec (.jmp 0x300) State.reset = .next { State.reset with pc := 0x300 } :=
  ⟨rfl, rfl⟩

theorem witness_KeysSeenByThreeInstructions :
    ∀ x, Instr.cls ≠ .skipKp x ∧ Instr.cls ≠ .skipKnp x ∧ Instr.cls ≠ .ldK x := by
  intro x; exact ⟨nofun, nofun, nofun⟩

theorem witness_SoundTimerNeverRead : ∀ x, Instr.ldDt 0x0 ≠ .stSt x := by
  intro x; exact nofun

/-- V-STR-6: the two registers stored at 0x202 and 0x203 by the instruction at 0x200. -/
theorem witness_StoredBytesAreFetched :
    (start 0xF155).mem.wf ∧ ({ start 0xF155 with i := 0x202 } : State).base + (0x1 : RegIx).toNat < 4096 ∧
    (0x0 : RegIx).toNat < (0x1 : RegIx).toNat ∧
    ({ start 0xF155 with i := 0x202 } : State).base + (0x0 : RegIx).toNat =
      (({ start 0xF155 with i := 0x202 } : State).pc.toNat + 2) % ({ start 0xF155 with i := 0x202 } : State).addrMod ∧
    ({ start 0xF155 with i := 0x202 } : State).oddRefused = false := by decide

/-- The invariant with an instruction in memory, and a step from there; pc at its bound also meets it. -/
theorem witness_InvariantKeptByStep :
    (start 0x0123).Inv ∧ step (start 0x0123) = .next { start 0x0123 with status := .aborted 0x123 } ∧
    ({ State.reset with pc := 0x10FE, stack := [0x1000, 0x002] } : State).Inv :=
  ⟨⟨by decide, by decide, by decide, nofun, by decide, by decide, by decide, Screen.shaped_blank _ _,
      by decide⟩, rfl,
    ⟨Memory.wf_nil, nofun, by decide, by simp [State.reset, State.addrMod, AddrWidth.modulus], by decide, by decide,
      by decide, Screen.shaped_blank _ _, by decide⟩⟩

theorem witness_InvariantAtLaunch :
    ∃ s, State.launch { program := [0x12, 0x00] } = some s := ⟨_, if_pos (by decide)⟩

/-- The longest program that fits at the default, with a byte of INIT below it, the shortest that does not, a font
that a program would lie over, the highest FONT_BASE that R56 admits and the first it does not, and an empty program at
the font's base, strictly inside its range (log 31) and just after it. -/
theorem witness_LaunchBuildsState :
    (({ program := List.replicate 3584 0x00, mem := [(0x1FF, 0x55)] } : Launch).fits ∧
      (∀ c ∈ ({ mem := [(0x1FF, 0x55)] } : Launch).mem, c.1 < 4096) ∧
      (({ mem := [(0x1FF, 0x55)] } : Launch).mem.map Prod.fst).Nodup) ∧
    ¬ ({ program := List.replicate 3585 0x00 } : Launch).fits ∧
    ¬ ({ config := { fontBase := 0x1FF }, program := [0x12] } : Launch).fits ∧
    ({ config := { fontBase := 0x4C2 } } : Launch).fits ∧ ¬ ({ config := { fontBase := 0x4C3 } } : Launch).fits ∧
    ({ config := { fontBase := 0x200 } } : Launch).fits ∧ ¬ ({ config := { fontBase := 0x1FF } } : Launch).fits ∧
    ¬ ({ config := { fontBase := 0x1B1 } } : Launch).fits ∧ ({ config := { fontBase := 0x1B0 } } : Launch).fits := by
  refine ⟨⟨?_, by simp, by simp⟩, ?_, by decide, by decide, by decide, by decide, by decide, by decide, by decide⟩ <;>
    simp only [Launch.fits, List.length_replicate] <;> decide

theorem witness_MemoryDeterminedByBytes :
    Memory.wf [(0x300, 0x04)] ∧ Memory.wf (Memory.write [] 0x300 0x04) := by decide

end Sys2Proof.Tests
end

section
/-!
The cycle of one step (00_scope.md R10): two bytes decode exactly as the word they make, a processor step executes the
instruction its fetched word decodes to, and a step of a running machine is a processor step with its boundary.
-/

namespace Sys2Proof

/-- Two bytes are one instruction exactly when the big-endian word they make decodes to it (R52, R70). -/
theorem decodeBytes_pair_eq_ok_iff {c : Config} {high low : Byte} {i : Instr} :
    decodeBytes c [high, low] = .ok (i, []) ↔ decode c (wordOfBytes high low) = .ok i := by
  simp only [decodeBytes]
  cases decode c (wordOfBytes high low) with
  | ok j => simp
  | error r => simp

end Sys2Proof

namespace Sys2Proof.Machine

/-- While the status is Running, a step is a processor step with the boundary after it (R10, R178, R183). -/
theorem step_of_running {s : State} (h : s.status = .running) : step s = thenBoundary (processorStep s) := by
  unfold step
  rw [h]

/-- A processor step executes the instruction that its fetched word decodes to (R10). -/
theorem processorStep_of_decode {s : State} {w : Word} {i : Instr} (hf : s.fetchWord = .ok w)
    (hd : Sys2Proof.decode s.config w = .ok i) : processorStep s = exec i s := by
  unfold processorStep
  simp only [hf, State.orRaise_ok, hd]

/-- Settles O5: the fetch answers the word of the two bytes at pc, that word decodes to `i`, and a running machine's
step puts the boundary after the execution of `i`. -/
theorem stepRunsDecodedInstruction : Obligations.StepRunsDecodedInstruction := by
  intro s i hs ⟨hpc, hodd⟩ hi
  have hf := State.fetchWord_ok hpc hodd
  have hd := decodeBytes_pair_eq_ok_iff.mp hi
  rw [step_of_running hs, processorStep_of_decode hf hd]

end Sys2Proof.Machine
end

section
/-!
The state of 10_state.md: which instruction may change which piece of it, and which pieces no instruction reads; what
ends a run for good; and the state at reset.
-/

namespace Sys2Proof.Machine

/-! ## Who writes what, read off the frame of `exec` -/

/-- A register that `exec` changed is one its instruction may write. -/
theorem writesReg_of_reg_ne {i : Instr} {s t : State} {r : RegIx} (h : exec i s = .next t)
    (hne : t.reg r ≠ s.reg r) : writesReg i r = true := by
  by_contra hw
  exact hne ((exec_within h).1 r (Bool.eq_false_iff.mpr hw))

/-- A piece of state that `exec` changed is one its instruction may write. -/
theorem mem_writesPiece_of_not_same {i : Instr} {s t : State} {p : Piece} (h : exec i s = .next t)
    (hne : ¬ p.same s t) : p ∈ writesPiece i := by
  by_contra hp
  exact hne ((exec_within h).2 p hp)

/-- Settles O46: the instructions that may write register 0xF are the flag writers, which name it whatever X is, and
the writers of V[X], which do so at X = 0xF. -/
theorem flagWriters : Obligations.FlagWriters := by
  intro i s t h hne
  have hw := writesReg_of_reg_ne h hne
  cases i with
  | addReg x y | sub x y | shr x y | subn x y | shl x y => exact .inl ⟨x, y, by simp⟩
  | draw x y n => exact .inr (.inl ⟨x, y, n, rfl⟩)
  | addI x => exact .inr (.inr (.inl ⟨x, rfl⟩))
  | ldImm x nn | addImm x nn | rand x nn =>
    obtain rfl : 0xF = x := of_decide_eq_true hw
    exact .inr (.inr (.inr (.inl ⟨nn, by simp⟩)))
  | ldReg x y | or x y | and x y | xor x y =>
    obtain rfl : 0xF = x := of_decide_eq_true hw
    exact .inr (.inr (.inr (.inr (.inl ⟨y, by simp⟩))))
  | ldDt x | ldK x =>
    obtain rfl : 0xF = x := of_decide_eq_true hw
    simp
  | ldRegs x =>
    have hx : 0xF ≤ x.toNat := of_decide_eq_true hw
    obtain rfl : x = 0xF := by bv_omega
    simp
  | _ => cases hw

/-- The instructions that may write the screen (R29). -/
theorem screen_mem_writesPiece {i : Instr} (h : Piece.screen ∈ writesPiece i) :
    i = .cls ∨ ∃ x y n, i = .draw x y n := by
  cases i with
  | cls => exact .inl rfl
  | draw x y n => exact .inr ⟨x, y, n, rfl⟩
  | _ => simp [writesPiece] at h

/-- Settles O48: a changed screen is a piece the instruction may write. -/
theorem screenWriters : Obligations.ScreenWriters :=
  fun _ _ _ h hne => screen_mem_writesPiece (mem_writesPiece_of_not_same h hne)

/-- The instructions that may write I (R24). -/
theorem i_mem_writesPiece {i : Instr} (h : Piece.i ∈ writesPiece i) :
    (∃ nnn, i = .stI nnn) ∨ ∃ x, i = .addI x ∨ i = .ldF x ∨ i = .stRegs x ∨ i = .ldRegs x := by
  cases i with
  | stI nnn => exact .inl ⟨nnn, rfl⟩
  | addI x | ldF x | stRegs x | ldRegs x => exact .inr ⟨x, by simp⟩
  | _ => simp [writesPiece] at h

/-- The instructions that may write the return stack (R25). -/
theorem stack_mem_writesPiece {i : Instr} (h : Piece.stack ∈ writesPiece i) : i = .ret ∨ ∃ nnn, i = .call nnn := by
  cases i with
  | ret => exact .inl rfl
  | call nnn => exact .inr ⟨nnn, rfl⟩
  | _ => simp [writesPiece] at h

/-- The one instruction that may write DT (R26). -/
theorem dt_mem_writesPiece {i : Instr} (h : Piece.dt ∈ writesPiece i) : ∃ x, i = .stDt x := by
  cases i with
  | stDt x => exact ⟨x, rfl⟩
  | _ => simp [writesPiece] at h

/-- The one instruction that may write ST (R27). -/
theorem st_mem_writesPiece {i : Instr} (h : Piece.st ∈ writesPiece i) : ∃ x, i = .stSt x := by
  cases i with
  | stSt x => exact ⟨x, rfl⟩
  | _ => simp [writesPiece] at h

/-- No instruction may write the key set (R30). -/
theorem keys_notMem_writesPiece (i : Instr) : Piece.keys ∉ writesPiece i := by
  cases i <;> simp [writesPiece]

/-- No instruction may write the configuration (R5). -/
theorem config_notMem_writesPiece (i : Instr) : Piece.config ∉ writesPiece i := by
  cases i <;> simp [writesPiece]

/-- A boundary leaves the configuration alone, whether the run goes on or is over. -/
@[simp] theorem State.boundary_config (s : State) : s.boundary.config = s.config := by
  by_cases h : s.status = .running
  · rw [s.boundary_running h]
  · rw [s.boundary_ended h]

/-- A processor step leaves the configuration alone: it is an instruction's, or a raise. -/
theorem processorStep_config {s t : State} (h : processorStep s = .next t) : t.config = s.config := by
  rcases processorStep_cases s with ⟨_, i, -, -, e⟩ | ⟨f, e⟩ <;> rw [e] at h
  · exact (exec_within h).2 .config (config_notMem_writesPiece i)
  · cases h; rfl

/-- Settles O49: each changed register is a piece the instruction may write; a step is a processor step and a
boundary, and neither touches the configuration. -/
theorem specialRegisterWriters : Obligations.SpecialRegisterWriters := by
  refine ⟨fun i s t h => ⟨?_, ?_, ?_, ?_, ?_⟩, fun s t h => ?_⟩
  · exact fun hne => i_mem_writesPiece (mem_writesPiece_of_not_same h hne)
  · exact fun hne => stack_mem_writesPiece (mem_writesPiece_of_not_same h hne)
  · exact fun hne => dt_mem_writesPiece (mem_writesPiece_of_not_same h hne)
  · exact fun hne => st_mem_writesPiece (mem_writesPiece_of_not_same h hne)
  · exact (exec_within h).2 .keys (keys_notMem_writesPiece i)
  · obtain ⟨-, u, hu, rfl⟩ := step_next h
    rw [State.boundary_config, processorStep_config hu]

/-! ## Where pc goes (R23, R176) -/

/-- The normal advance, after any change that leaves pc and the configuration alone, adds 2 (R23). -/
theorem pcPlus_advance {s u : State} (hp : u.pc = s.pc) (hc : u.config = s.config) : PcPlus s u.advance 2 := by
  rw [PcPlus, State.advance_pc, State.toAddr_toNat, hp, State.addrMod, hc]; rfl

/-- A skip adds 4 when it is taken and 2 when it is not (R114). -/
theorem pcPlus_skipIf (s : State) (taken : Bool) : PcPlus s (s.skipIf taken) (if taken then 4 else 2) := by
  rw [PcPlus, State.skipIf_pc, State.toAddr_toNat]

/-- A skip adds 2 or 4 (R114). -/
theorem pcPlus_skipIf_two_or_four (s : State) (taken : Bool) :
    PcPlus s (s.skipIf taken) 2 ∨ PcPlus s (s.skipIf taken) 4 := by
  have h := pcPlus_skipIf s taken
  cases taken
  · exact .inl h
  · exact .inr h

/-- An operation that may raise goes on with a value, or ends the run and leaves pc (R174). -/
theorem State.orRaise_next_or_pc {α : Type} {s t : State} {r : Except RunFault α} {k : α → Result}
    (h : s.orRaise r k = .next t) : (∃ a, r = .ok a ∧ k a = .next t) ∨ (t.pc = s.pc ∧ ¬ t.safe) := by
  rcases State.orRaise_next h with hk | ⟨f, -, rfl⟩
  · exact .inl hk
  · exact .inr ⟨rfl, nofun⟩

/-- The two writes of a flag-writing instruction leave pc alone. -/
@[simp] theorem State.writeFlagged_pc (s : State) (x : RegIx) (b c : Byte) : (s.writeFlagged x b c).pc = s.pc := by
  rcases s.writeFlagged_eq x b c with ⟨-, h⟩ | ⟨-, h⟩ <;> rw [h] <;> simp

/-- The two writes of a flag-writing instruction leave the configuration alone. -/
@[simp] theorem State.writeFlagged_config (s : State) (x : RegIx) (b c : Byte) :
    (s.writeFlagged x b c).config = s.config := by
  rcases s.writeFlagged_eq x b c with ⟨-, h⟩ | ⟨-, h⟩ <;> rw [h] <;> simp

/-- A held FX0A leaves pc; one that ends its wait advances (R163). -/
theorem execLdK_pc {x : RegIx} {s t : State} (h : execLdK x s = .next t) : t.pc = s.pc ∨ PcPlus s t 2 := by
  rcases execLdK_eq x s with ⟨-, e⟩ | ⟨k, -, d, e⟩ <;> rw [e] at h <;> cases h
  · obtain ⟨w, hw⟩ := within_wait s (.inl rfl)
    exact .inl (by rw [hw])
  · obtain ⟨w, hw⟩ := within_wait s (.inr rfl)
    exact .inr (pcPlus_advance (by simp [hw]) (by simp [hw]))

/-- Settles O50: the instructions fall into those that advance, the skips, those that load pc, SYS and LD_K; where one
of them may raise, the raise leaves pc and ends the run. -/
theorem pcDiverters : Obligations.PcDiverters := by
  intro i s t _ h
  cases i with
  | ret => exact .inr (.inr (.inr (.inl rfl)))
  | jmp nnn | call nnn | jmpV0 nnn => exact .inr (.inr (.inr (.inr ⟨nnn, by simp⟩)))
  | sys nnn =>
    cases h
    exact .inr (.inl ⟨rfl, .inl nofun⟩)
  | ldK x =>
    rcases execLdK_pc h with hp | hp
    · exact .inr (.inl ⟨hp, .inr ⟨x, rfl⟩⟩)
    · exact .inl hp
  | cls | ldImm | addImm | ldReg | or | and | xor | rand | stI | ldDt | stDt | stSt | addI =>
    cases h
    exact .inl (pcPlus_advance rfl rfl)
  | addReg | sub | shr | subn | shl =>
    cases h
    exact .inl (pcPlus_advance (State.writeFlagged_pc ..) (State.writeFlagged_config ..))
  | skipEImm x nn | skipNeImm x nn =>
    cases h
    rcases pcPlus_skipIf_two_or_four s _ with hp | hp
    · exact .inl hp
    · exact .inr (.inr (.inl ⟨hp, .inl ⟨x, nn, by simp⟩⟩))
  | skipEReg x y | skipNeReg x y =>
    cases h
    rcases pcPlus_skipIf_two_or_four s _ with hp | hp
    · exact .inl hp
    · exact .inr (.inr (.inl ⟨hp, .inr (.inl ⟨x, y, by simp⟩)⟩))
  | skipKp x | skipKnp x =>
    rcases State.orRaise_next_or_pc h with ⟨k, -, hk⟩ | ⟨hp, hend⟩
    · cases hk
      rcases pcPlus_skipIf_two_or_four s _ with hp | hp
      · exact .inl hp
      · exact .inr (.inr (.inl ⟨hp, .inr (.inr ⟨x, by simp⟩)⟩))
    · exact .inr (.inl ⟨hp, .inl hend⟩)
  | draw | ldF | ldRegs =>
    rcases State.orRaise_next_or_pc h with ⟨a, -, hk⟩ | ⟨hp, hend⟩
    · cases hk
      exact .inl (pcPlus_advance rfl rfl)
    · exact .inr (.inl ⟨hp, .inl hend⟩)
  | ldB | stRegs =>
    rcases State.orRaise_next_or_pc h with ⟨u, hu, hk⟩ | ⟨hp, hend⟩
    · rcases s.storeBytes_eq _ _ with ⟨-, e⟩ | ⟨-, -, e⟩ <;> rw [e] at hu <;> cases hu
      cases hk
      exact .inl (pcPlus_advance rfl rfl)
    · exact .inr (.inl ⟨hp, .inl hend⟩)

/-! ## The pieces an instruction does not read: the key set and ST (R27, R30) -/

/-- `s` with its key set and its ST changed. One function for both pieces: with ST kept it is R30's comparison, with the
key set kept R27's. -/
def State.mapKeysSt (g : KeySet → KeySet) (k : Byte → Byte) (s : State) : State :=
  { s with keys := g s.keys, st := k s.st }

section
variable (g : KeySet → KeySet) (k : Byte → Byte) (s : State)

/-- An operation that may raise does the same under another key set and ST, if its value corresponds by `φ` and what
follows does the same. -/
theorem State.orRaise_mapKeysSt {α : Type} {r r' : Except RunFault α} {next next' : α → Result} (φ : α → α)
    (hr : r' = r.map φ) (hn : ∀ a, next' (φ a) = mapNext (State.mapKeysSt g k) (next a)) :
    (s.mapKeysSt g k).orRaise r' next' = mapNext (State.mapKeysSt g k) (s.orRaise r next) := by
  subst hr
  cases r with
  | ok a => exact hn a
  | error f => rfl

/-- The same where the operation's value does not depend on the key set or ST at all. -/
theorem State.orRaise_mapKeysSt_same {α : Type} {r : Except RunFault α} {next next' : α → Result}
    (hn : ∀ a, next' a = mapNext (State.mapKeysSt g k) (next a)) :
    (s.mapKeysSt g k).orRaise r next' = mapNext (State.mapKeysSt g k) (s.orRaise r next) :=
  s.orRaise_mapKeysSt g k id (by cases r <;> rfl) hn

/-- pop sees neither the key set nor ST (R25). -/
theorem State.pop_mapKeysSt :
    (s.mapKeysSt g k).pop = s.pop.map fun r => (r.1, r.2.mapKeysSt g k) := by
  simp only [State.pop, State.mapKeysSt]
  cases s.stack <;> rfl

/-- push sees neither the key set nor ST (R25). -/
theorem State.push_mapKeysSt (a : Addr) :
    (s.mapKeysSt g k).push a = (s.push a).map (State.mapKeysSt g k) := by
  rcases s.push_eq a with ⟨h, e⟩ | ⟨h, e⟩ <;> rw [e]
  · exact if_pos h
  · exact if_neg (Nat.not_lt.mpr h)

/-- MemWrite sees neither the key set nor ST (R51). -/
theorem State.storeBytes_mapKeysSt (a : Nat) (bytes : List Byte) :
    (s.mapKeysSt g k).storeBytes a bytes = (s.storeBytes a bytes).map (State.mapKeysSt g k) := by
  have hf : (s.mapKeysSt g k).transferFault a bytes.length = s.transferFault a bytes.length := rfl
  simp only [State.storeBytes, hf]
  cases s.transferFault a bytes.length <;> rfl

/-- A flag-writing instruction's writes, in either order, are the same under another key set and ST (R9). -/
theorem State.loadFlagged_mapKeysSt (x : RegIx) (b c : Byte) :
    (s.mapKeysSt g k).loadFlagged x b c = mapNext (State.mapKeysSt g k) (s.loadFlagged x b c) := by
  simp only [State.loadFlagged, State.writeFlagged, State.mapKeysSt]
  cases s.config.vfWriteOrder <;> rfl

/-- Every instruction but the three that read the key set and the one that writes ST does the same under another key
set and another ST (R27, R30). -/
theorem exec_mapKeysSt {i : Instr} (hk : ∀ x, i ≠ .skipKp x ∧ i ≠ .skipKnp x ∧ i ≠ .ldK x) (hs : ∀ x, i ≠ .stSt x) :
    exec i (s.mapKeysSt g k) = mapNext (State.mapKeysSt g k) (exec i s) := by
  cases i with
  | skipKp x => exact absurd rfl (hk x).1
  | skipKnp x => exact absurd rfl (hk x).2.1
  | ldK x => exact absurd rfl (hk x).2.2
  | stSt x => exact absurd rfl (hs x)
  | ret => exact s.orRaise_mapKeysSt g k _ (s.pop_mapKeysSt g k) fun _ => rfl
  | call nnn => exact s.orRaise_mapKeysSt g k _ (s.push_mapKeysSt g k _) fun _ => rfl
  | ldB x | stRegs x => exact s.orRaise_mapKeysSt g k _ (s.storeBytes_mapKeysSt g k _ _) fun _ => rfl
  | draw x y n | ldF x | ldRegs x => exact s.orRaise_mapKeysSt_same g k fun _ => rfl
  | addReg x y | sub x y | shr x y | subn x y | shl x y => exact s.loadFlagged_mapKeysSt g k x _ _
  | _ => rfl

/-- LD_K does the same under another ST: it reads the key set, which is the same (R163). -/
theorem execLdK_mapSt (x : RegIx) :
    execLdK x (s.mapKeysSt id k) = mapNext (State.mapKeysSt id k) (execLdK x s) := by
  have hrep : (s.mapKeysSt id k).keysReported = s.keysReported := rfl
  have hhold : (s.mapKeysSt id k).holdWait = s.holdWait.mapKeysSt id k := by
    simp only [State.holdWait, State.mapKeysSt]
    cases s.config.waitKeyMode <;> rfl
  have hend : (s.mapKeysSt id k).endWait = s.endWait.mapKeysSt id k := by
    simp only [State.endWait, State.mapKeysSt]
    cases s.config.waitKeyMode <;> rfl
  simp only [execLdK, hrep, hhold, hend]
  rcases s.keysReported with _ | ⟨j, _ | ⟨l, others⟩⟩ <;> rfl

end

/-- Settles O51: the common lemma with ST as it is; ST_ST alone writes ST, from a register. -/
theorem keysSeenByThreeInstructions : Obligations.KeysSeenByThreeInstructions := by
  intro i s ks hk
  by_cases hs : ∀ x, i ≠ .stSt x
  · exact exec_mapKeysSt (fun _ => ks) id s hk hs
  · obtain ⟨x, hx⟩ := not_forall.mp hs
    obtain rfl := not_not.mp hx
    rfl

/-- Settles O52: the common lemma with the key set as it is; the three instructions that read the key set do not read
ST, and ST_ST overwrites it. -/
theorem soundTimerNeverRead : Obligations.SoundTimerNeverRead := by
  refine ⟨fun i s b hs => ?_, fun x s b => rfl⟩
  by_cases hk : ∀ x, i ≠ .skipKp x ∧ i ≠ .skipKnp x ∧ i ≠ .ldK x
  · exact exec_mapKeysSt id (fun _ => b) s hk hs
  · cases i with
    | skipKp x | skipKnp x => exact s.orRaise_mapKeysSt_same id (fun _ => b) fun _ => rfl
    | ldK x => exact execLdK_mapSt (fun _ => b) s x
    | _ => exact absurd (fun x => ⟨nofun, nofun, nofun⟩) hk

/-! ## The end of the run (R33, R170) -/

/-- A step from an ended run has no next state: it says that the run is over. -/
theorem step_of_not_safe {s : State} (h : ¬ s.safe) : ∃ f, step s = .fault f := by
  unfold step
  cases hs : s.status with
  | running => exact absurd hs h
  | aborted nnn => exact ⟨_, rfl⟩
  | faulted f => exact ⟨_, rfl⟩

/-- A run whose first step is a fault ends there, however many steps are left. -/
theorem run_succ_of_fault {M : Host.Core} {s : M.State} {f : M.Fault} (h : M.step s = .fault f) (k : Nat) :
    M.run (k + 1) s = .fault f := by
  rw [Host.Core.run, h]

/-- Settles O44: the first of the steps has no next state already. -/
theorem endedRunNeverResumes : Obligations.EndedRunNeverResumes := by
  intro s k t h hrun
  obtain ⟨f, hf⟩ := step_of_not_safe h
  cases hrun.symm.trans (run_succ_of_fault (M := core) hf k)

/-! ## Reset (R35) -/

/-- Settles O55: memory lists nothing, the stack is empty, the screen is blank, and the rest are bounds on numbers. -/
theorem invariantAtReset : Obligations.InvariantAtReset :=
  ⟨Memory.wf_nil, nofun, by decide, nofun, by decide, by decide, by decide, Screen.shaped_blank _ _, by decide⟩

/-- A canonical memory that reads everywhere as an unlisted address does lists nothing (R50). -/
theorem Memory.eq_nil_of_read {m : Memory} (h : m.wf) (hr : ∀ a, m.read a = Memory.unlisted a) : m = [] := by
  cases m with
  | nil => rfl
  | cons c rest =>
    have hc : Memory.read (c :: rest) c.1 = c.2 := if_pos rfl
    exact absurd (hc.symm.trans (hr c.1)) (h.2 c (by simp))

/-- A place of the font reads, unlisted, as its font byte (R56). -/
theorem Memory.unlisted_font {k : Nat} (h : k < standardFont.length) : Memory.unlisted k = standardFont[k] := by
  rw [Memory.unlisted, List.getElem?_eq_getElem h]; rfl

/-- A place outside the font reads, unlisted, as 0 (R35). -/
theorem Memory.unlisted_outside {a : Nat} (h : standardFont.length ≤ a) : Memory.unlisted a = 0 := by
  rw [Memory.unlisted, List.getElem?_eq_none h]; rfl

/-- A launch with no program and nothing in INIT has the font alone in its memory (R190). -/
theorem Launch.memory_of_font_only {p : Launch} (hprogram : p.program = []) (hinit : p.mem = []) :
    p.memory = (Memory.zero p.config.memSize).writeBytes p.config.fontBase p.config.font.toList := by
  rw [Launch.memory, hprogram, hinit, Memory.writeCells]; rfl

/-- The conventional launch's memory holds the font at 0x000 and 0 elsewhere, so it lists nothing. -/
theorem Launch.memory_conventional : ({} : Launch).memory = [] := by
  have hwf := Memory.wf_zero 4096
  rw [Launch.memory_of_font_only rfl rfl]
  show (Memory.zero 4096).writeBytes 0 standardFont = []
  refine Memory.eq_nil_of_read (Memory.wf_writeBytes hwf 0 standardFont) fun a => ?_
  by_cases ha : a < standardFont.length
  · have hfont := Memory.read_writeBytes hwf 0 ha
    rwa [Nat.zero_add, ← Memory.unlisted_font ha] at hfont
  · rw [Memory.read_writeBytes_outside _ (by omega), Memory.zero,
      Memory.read_writeBytes_outside _ (by rw [List.length_replicate]; omega)]
    rfl

/-- The conventional launch's screen is blank. -/
theorem Launch.screen_conventional : ({} : Launch).screen = Screen.blank 32 64 := by
  refine Screen.ext_cells (Launch.shaped_screen {}) (Screen.shaped_blank 32 64) fun r c => ?_
  rw [Screen.cell_blank, Bool.eq_false_iff, ne_eq, Launch.cell_screen]
  rintro ⟨-, -, hlit⟩
  cases hlit

/-- The conventional launch with no program is reset (R35, R190). -/
theorem State.launch_conventional : State.launch {} = some State.reset := by
  rw [State.launch, if_pos (by decide), Launch.memory_conventional, Launch.screen_conventional]
  rfl

/-- No key is down at reset (log 4). -/
theorem State.reset_keyPressed (k : Nat) : State.reset.keyPressed k = false := by
  simp only [State.keyPressed, KeySet.down, State.reset, List.getD_eq_getElem?_getD, List.getElem?_replicate]
  split <;> simp

/-- Settles O58: the conventional launch builds reset, whose fields are the values listed. -/
theorem resetIsConventionalLaunch : Obligations.ResetIsConventionalLaunch :=
  ⟨State.launch_conventional, rfl, rfl, rfl, fun _ h => Memory.unlisted_font h, fun _ => Vector.getElem_replicate _,
    rfl, rfl, rfl, Screen.cell_blank 32 64, fun _ h => Memory.unlisted_outside h, State.reset_keyPressed, rfl⟩

end Sys2Proof.Machine
end

section
/-!
Memory (20_memory.md): its canonical form is determined by what its addresses read as, who changes a byte of it, the
instruction fetch, and the invariant that holds memory and the address registers together.
-/

namespace Sys2Proof.Machine

/-! ## Canonical memories (R50) -/

/-- A cell listed in canonical form is what its address reads as. -/
theorem Memory.read_of_mem {m : Memory} (h : m.wf) {c : Host.Cell} (hc : c ∈ m) : m.read c.1 = c.2 := by
  obtain ⟨hs, -⟩ := h
  induction m with
  | nil => cases hc
  | cons d rest ih =>
    rcases List.mem_cons.mp hc with rfl | hc
    · exact if_pos rfl
    · have hne : c.1 ≠ d.1 := Nat.ne_of_gt (Memory.above_head hs c hc)
      exact (if_neg hne).trans (ih hc (List.pairwise_cons.mp hs).2)

/-- The cells of a canonical memory are the bytes that differ from the reset contents, each at its address. -/
theorem Memory.mem_iff_read {m : Memory} (h : m.wf) (c : Host.Cell) :
    c ∈ m ↔ m.read c.1 = c.2 ∧ c.2 ≠ Memory.unlisted c.1 := by
  refine ⟨fun hc => ⟨Memory.read_of_mem h hc, h.2 c hc⟩, fun ⟨hr, hne⟩ => ?_⟩
  by_contra hc
  refine hne (hr.symm.trans (Memory.read_of_not_listed fun d hd he => hc ?_))
  have hd2 : d.2 = c.2 := by rw [← Memory.read_of_mem h hd, he, hr]
  rwa [← Prod.ext he hd2]

/-- Settles O59: the bytes say which cells each memory lists, and rising addresses say in which order. -/
theorem memoryDeterminedByBytes : Obligations.MemoryDeterminedByBytes := by
  intro m n hm hn hread
  have : Std.Asymm fun c d : Host.Cell => c.1 < d.1 := ⟨fun _ _ => Nat.lt_asymm⟩
  refine hm.1.eq_of_mem_iff hn.1 fun c => ?_
  rw [Memory.mem_iff_read hm, Memory.mem_iff_read hn, hread]

/-! ## Who writes memory (R55, R62) -/

/-- The instructions that may write memory. -/
theorem mem_mem_writesPiece {i : Instr} (h : Piece.mem ∈ writesPiece i) : ∃ x, i = .ldB x ∨ i = .stRegs x := by
  cases i with
  | ldB x | stRegs x => exact ⟨x, by simp⟩
  | _ => simp [writesPiece] at h

/-- Settles O47: a memory with a changed byte is a piece the instruction may write. -/
theorem memoryWriters : Obligations.MemoryWriters :=
  fun _ _ _ h ⟨a, hne⟩ => mem_mem_writesPiece (mem_writesPiece_of_not_same h fun hsame => hne (hsame a))

/-! ## Instruction fetch (R51, R52, R54) -/

/-- The word of two bytes as a number: the first byte is the more significant (R52). -/
theorem wordOfBytes_toNat (high low : Byte) : (wordOfBytes high low).toNat = 256 * high.toNat + low.toNat := by
  rw [wordOfBytes, BitVec.toNat_append, ← Nat.shiftLeft_add_eq_or_of_lt low.isLt, Nat.shiftLeft_eq, Nat.mul_comm]

/-- Settles O6: such a pc is not refused, so the fetch answers the big-endian word at it. -/
theorem fetchIsBigEndian : Obligations.FetchIsBigEndian := by
  intro s hpc heven
  have hodd : s.oddRefused = false := by
    rw [Bool.eq_false_iff, ne_eq, State.oddRefused_eq]
    rintro ⟨hreq, hone⟩
    have := heven hreq
    omega
  exact ⟨_, State.fetchWord_ok hpc hodd, wordOfBytes_toNat _ _⟩

/-- A running machine whose fetch faults ends its run there, with no other change (R173, R174). -/
theorem step_of_fetch_error {s : State} {f : RunFault} (hs : s.safe) (hf : s.fetchWord = .error f) :
    step s = .next { s with status := .faulted f } := by
  rw [step_of_running hs, processorStep, hf, State.orRaise_error]
  exact congrArg _ (s.boundary_faulted f)

/-- Settles O7: in the one case the fetch is past the end, in the other its odd pc is refused. -/
theorem fetchPastEndFaults : Obligations.FetchPastEndFaults :=
  ⟨fun _ hs hpast => step_of_fetch_error hs (State.fetchWord_past hpast),
    fun s hs hpc hreq hone => step_of_fetch_error hs (State.fetchWord_odd hpc (s.oddRefused_eq.mpr ⟨hreq, hone⟩))⟩

/-! ## A stored instruction is the one fetched (R60) -/

/-- ST_REGS with its range inside memory stores it and advances (R144). -/
theorem execStRegs_of_inside {x : RegIx} {s : State} (h : s.base + x.toNat < s.config.memSize) :
    ∃ t, execStRegs x s = .next t ∧ t.mem = s.mem.writeBytes s.base (s.regRange x) ∧ PcPlus s t 2 ∧
      t.config = s.config := by
  rcases s.storeBytes_eq s.base (s.regRange x) with ⟨-, e⟩ | ⟨-, hout, -⟩
  · rw [execStRegs, e, State.orRaise_ok]
    exact ⟨_, rfl, rfl, pcPlus_advance rfl rfl, rfl⟩
  · rw [s.length_regRange] at hout
    omega

/-- After ST_REGS the addresses of its range read as the registers stored (R144). -/
theorem read_writeBytes_regRange {s : State} (hwf : s.mem.wf) {x r : RegIx} (hr : r.toNat ≤ x.toNat) :
    (s.mem.writeBytes s.base (s.regRange x)).read (s.base + r.toNat) = s.reg r := by
  have hlt : r.toNat < (s.regRange x).length := by rw [s.length_regRange]; omega
  rw [Memory.read_writeBytes hwf s.base hlt, s.getElem_regRange x r hlt]

/-- Either width keeps the lowest bit of what an address register receives (R8). -/
theorem State.two_dvd_addrMod (s : State) : 2 ∣ s.addrMod := by
  unfold State.addrMod AddrWidth.modulus
  split <;> decide

/-- An advance by 2 keeps pc odd or even, so REQUIRE_EVEN_PC refuses the new pc only where it refused the old (R54). -/
theorem PcPlus.oddRefused_eq {s t : State} (hp : PcPlus s t 2) (hc : t.config = s.config) :
    t.oddRefused = s.oddRefused := by
  have hparity : t.pc.toNat % 2 = s.pc.toNat % 2 := by
    rw [hp, Nat.mod_mod_of_dvd _ s.two_dvd_addrMod, Nat.add_mod_right]
  rw [State.oddRefused, State.oddRefused, hparity, hc]

/-- Settles O53: the next pc is the address V[k] was stored at, and the byte after it holds V[k + 1]. -/
theorem storedBytesAreFetched : Obligations.StoredBytesAreFetched := by
  intro x k s hwf hin hk hnext hodd
  obtain ⟨t, ht, hmem, hpc, hconfig⟩ := execStRegs_of_inside hin
  have hpcAt : t.pc.toNat = s.base + k.toNat := hpc.trans hnext.symm
  have hfits : t.pc.toNat + 1 < t.config.memSize := by rw [hpcAt, hconfig]; omega
  have hsucc : (k + 1).toNat = k.toNat + 1 := by bv_omega
  have hhigh : t.mem.read t.pc.toNat = s.reg k := by
    rw [hmem, hpcAt, read_writeBytes_regRange hwf hk.le]
  have hlow : t.mem.read (t.pc.toNat + 1) = s.reg (k + 1) := by
    rw [hmem, hpcAt, Nat.add_assoc, ← hsucc, read_writeBytes_regRange hwf (by omega)]
  refine ⟨t, ht, ?_⟩
  rw [State.fetchWord_ok hfits ((hpc.oddRefused_eq hconfig).trans hodd), hhigh, hlow]

/-! ## What an instruction does to each part of the invariant -/

/-- The two writes of a flag-writing instruction leave memory alone. -/
@[simp] theorem State.writeFlagged_mem (s : State) (x : RegIx) (b c : Byte) : (s.writeFlagged x b c).mem = s.mem := by
  rcases s.writeFlagged_eq x b c with ⟨-, h⟩ | ⟨-, h⟩ <;> rw [h] <;> simp

/-- LD_K, held or not, leaves memory alone (R163). -/
theorem execLdK_mem {x : RegIx} {s t : State} (h : execLdK x s = .next t) : t.mem = s.mem := by
  rcases execLdK_eq x s with ⟨-, e⟩ | ⟨k, -, d, e⟩ <;> rw [e] at h <;> cases h
  · obtain ⟨w, hw⟩ := within_wait s (.inl rfl)
    rw [hw]
  · obtain ⟨w, hw⟩ := within_wait s (.inr rfl)
    simp [hw]

/-- RET leaves memory alone; it raises, or moves the newest stack entry to pc (R101). -/
theorem execRet_next {s t : State} (h : execRet s = .next t) :
    t.mem = s.mem ∧ ((t.pc = s.pc ∧ t.stack = s.stack) ∨ s.stack = t.pc :: t.stack) := by
  rcases State.orRaise_next h with ⟨r, hr, hk⟩ | ⟨f, -, rfl⟩
  · rcases s.pop_eq with ⟨a, rest, hstack, e⟩ | ⟨-, e⟩ <;> rw [e] at hr <;> cases hr
    cases hk
    exact ⟨rfl, .inr hstack⟩
  · exact ⟨rfl, .inl ⟨rfl, rfl⟩⟩

/-- CALL leaves memory alone; it raises, or pushes the address after it on a stack that is not full and jumps (R103). -/
theorem execCall_next {nnn : BitVec 12} {s t : State} (h : execCall nnn s = .next t) :
    t.mem = s.mem ∧ ((t.pc = s.pc ∧ t.stack = s.stack) ∨
      (s.stack.length < s.config.stackDepth ∧ t.stack = s.toAddr (s.pc.toNat + 2) :: s.stack ∧
        t.pc = immAddr nnn)) := by
  rcases State.orRaise_next h with ⟨u, hu, hk⟩ | ⟨f, -, rfl⟩
  · rcases s.push_eq _ with ⟨hroom, e⟩ | ⟨-, e⟩ <;> rw [e] at hu <;> cases hu
    cases hk
    exact ⟨rfl, .inr ⟨hroom, rfl, rfl⟩⟩
  · exact ⟨rfl, .inl ⟨rfl, rfl⟩⟩

/-- Memory after an instruction: the same list, or bytes stored inside it (R51, R55). The frame of `exec` says that the
bytes are the same; the canonical form is about the list. -/
theorem exec_mem {i : Instr} {s t : State} (h : exec i s = .next t) :
    t.mem = s.mem ∨ ∃ a bytes, (bytes.length = 0 ∨ a + bytes.length ≤ s.config.memSize) ∧
      t.mem = s.mem.writeBytes a bytes := by
  cases i with
  | ldB x | stRegs x =>
    rcases State.orRaise_next h with ⟨u, hu, hk⟩ | ⟨f, -, rfl⟩
    · rcases s.storeBytes_eq _ _ with ⟨hin, e⟩ | ⟨-, -, e⟩ <;> rw [e] at hu <;> cases hu
      cases hk
      exact .inr ⟨_, _, hin, rfl⟩
    · exact .inl rfl
  | ret => exact .inl (execRet_next h).1
  | call nnn => exact .inl (execCall_next h).1
  | draw | skipKp | skipKnp | ldF | ldRegs =>
    rcases State.orRaise_next h with ⟨a, -, hk⟩ | ⟨f, -, rfl⟩
    · cases hk
      exact .inl rfl
    · exact .inl rfl
  | addReg | sub | shr | subn | shl =>
    cases h
    exact .inl (State.writeFlagged_mem ..)
  | ldK x => exact .inl (execLdK_mem h)
  | _ =>
    cases h
    exact .inl rfl

/-- An instruction keeps memory canonical and its addresses existing (R50, R51). -/
theorem exec_keeps_mem {i : Instr} {s t : State} (hwf : s.mem.wf) (hwithin : s.mem.within s.config.memSize)
    (h : exec i s = .next t) : t.mem.wf ∧ t.mem.within s.config.memSize := by
  rcases exec_mem h with hm | ⟨a, bytes, hin, hm⟩ <;> rw [hm]
  · exact ⟨hwf, hwithin⟩
  · exact ⟨Memory.wf_writeBytes hwf a bytes, Memory.within_writeBytes hwithin hin⟩

/-- An address operand fits either width (R73). -/
theorem State.immAddr_lt_addrMod (s : State) (nnn : BitVec 12) : (immAddr nnn).toNat < s.addrMod := by
  have := s.addrMod_bounds
  rw [immAddr_toNat]
  omega

/-- An instruction keeps I within its width (R24). -/
theorem exec_keeps_i {i : Instr} {s t : State} (hi : s.i.toNat < s.addrMod) (h : exec i s = .next t) :
    t.i.toNat < s.addrMod := by
  by_cases hsame : t.i = s.i
  · rwa [hsame]
  rcases i_mem_writesPiece (mem_writesPiece_of_not_same (p := .i) h hsame) with
    ⟨nnn, rfl⟩ | ⟨x, rfl | rfl | rfl | rfl⟩
  · cases h
    exact s.immAddr_lt_addrMod nnn
  · cases h
    exact s.toAddr_lt _
  all_goals
    rcases State.orRaise_next h with ⟨u, -, hk⟩ | ⟨f, -, rfl⟩
    · cases hk
      exact s.toAddr_lt _
    · exact hi

/-- Drawing a sprite keeps the screen's shape (R29, R151). -/
theorem Canvas.shaped_plotSprite {cv : Canvas} (h : cv.shaped) (row col : Nat) (sprite : List Byte) :
    (cv.plotSprite row col sprite).screen.shaped cv.height cv.width := by
  obtain ⟨hheight, hwidth, hshaped, -⟩ := Canvas.plotSprite_spec h row col sprite
  rwa [Canvas.shaped, hheight, hwidth] at hshaped

/-- An instruction keeps the screen's shape (R29). -/
theorem exec_keeps_shape {i : Instr} {s t : State} (hs : s.shaped) (h : exec i s = .next t) :
    t.screen.shaped s.config.screenH s.config.screenW := by
  by_cases hsame : t.screen = s.screen
  · rwa [hsame]
  rcases screen_mem_writesPiece (mem_writesPiece_of_not_same (p := .screen) h hsame) with rfl | ⟨x, y, n, rfl⟩
  · cases h
    exact Screen.shaped_blank _ _
  · rcases State.orRaise_next h with ⟨sprite, -, hk⟩ | ⟨f, -, rfl⟩
    · cases hk
      exact Canvas.shaped_plotSprite (cv := ⟨s.config.screenH, s.config.screenW, s.screen, false⟩) hs _ _ sprite
    · exact hs

/-! ## Where pc and the return addresses can lie (R23, R25, R103) -/

/-- `a` is at most what an advance or BNNN can make pc, and fits the width of an address register (R23). -/
abbrev State.PcBound (s : State) (a : Nat) : Prop := a ≤ max (s.config.memSize + 2) 0x10FE ∧ a < s.addrMod

/-- `a` can be the address after a CALL that was fetched (R25, R103). -/
abbrev State.ReturnAddr (s : State) (a : Addr) : Prop :=
  a.toNat ≤ s.config.memSize ∧ a.toNat < s.addrMod ∧ (s.config.memSize < s.addrMod → 2 ≤ a.toNat)

/-- An address operand is a possible pc (R102, R103). -/
theorem State.pcBound_immAddr (s : State) (nnn : BitVec 12) : s.PcBound (immAddr nnn).toNat :=
  ⟨by rw [immAddr_toNat]; omega, s.immAddr_lt_addrMod nnn⟩

/-- What a write of pc keeps of a sum within the bound is a possible pc (R8). -/
theorem State.pcBound_mod (s : State) {n : Nat} (h : n ≤ max (s.config.memSize + 2) 0x10FE) :
    s.PcBound (n % s.addrMod) :=
  ⟨(Nat.mod_le _ _).trans h, Nat.mod_lt _ (by have := s.addrMod_bounds; omega)⟩

/-- An advance or a skip of a fetched instruction leaves a possible pc (R23, R114). -/
theorem PcPlus.pcBound {s t : State} {n : Nat} (h : PcPlus s t n) (hf : s.canFetch) (hn : n ≤ 4) :
    s.PcBound t.pc.toNat := by
  obtain ⟨hpc, -⟩ := hf
  rw [h]
  exact s.pcBound_mod (by omega)

/-- The sum of BNNN is a possible pc: 0xFFF + 0xFF at most (R104). -/
theorem execJmpV0_pcBound (nnn : BitVec 12) {s t : State} (h : execJmpV0 nnn s = .next t) : s.PcBound t.pc.toNat := by
  cases h
  have hnnn := nnn.isLt
  have hv0 := (s.reg 0x0).isLt
  rw [State.toAddr_toNat]
  exact s.pcBound_mod (by omega)

/-- A return address is a possible pc (R101). -/
theorem State.ReturnAddr.pcBound {s : State} {a : Addr} (h : s.ReturnAddr a) : s.PcBound a.toNat := by
  obtain ⟨hle, hfits, -⟩ := h
  exact ⟨by omega, hfits⟩

/-- The address after a fetched CALL, as CALL pushes it, is a return address (R103). -/
theorem State.returnAddr_of_canFetch {s : State} (hf : s.canFetch) : s.ReturnAddr (s.toAddr (s.pc.toNat + 2)) := by
  obtain ⟨hpc, -⟩ := hf
  refine ⟨?_, s.toAddr_lt _, fun hwide => ?_⟩ <;> rw [State.toAddr_toNat]
  · exact (Nat.mod_le _ _).trans hpc
  · rw [Nat.mod_eq_of_lt (by omega)]
    omega

/-- A fetched instruction keeps the stack within its depth and its entries return addresses (R25, R103). -/
theorem exec_keeps_stack {i : Instr} {s t : State} (hf : s.canFetch) (hdepth : s.stack.length ≤ s.config.stackDepth)
    (hstack : ∀ a ∈ s.stack, s.ReturnAddr a) (h : exec i s = .next t) :
    t.stack.length ≤ s.config.stackDepth ∧ ∀ a ∈ t.stack, s.ReturnAddr a := by
  by_cases hsame : t.stack = s.stack
  · rw [hsame]
    exact ⟨hdepth, hstack⟩
  rcases stack_mem_writesPiece (mem_writesPiece_of_not_same (p := .stack) h hsame) with rfl | ⟨nnn, rfl⟩
  · obtain ⟨-, ⟨-, hst⟩ | hst⟩ := execRet_next h
    · exact absurd hst hsame
    · rw [hst] at hdepth hstack
      exact ⟨Nat.le_of_succ_le hdepth, fun a ha => hstack a (List.mem_cons_of_mem _ ha)⟩
  · obtain ⟨-, ⟨-, hst⟩ | ⟨hroom, hst, -⟩⟩ := execCall_next h
    · exact absurd hst hsame
    · rw [hst]
      exact ⟨hroom, List.forall_mem_cons.mpr ⟨State.returnAddr_of_canFetch hf, hstack⟩⟩

/-- A fetched instruction leaves a possible pc (R23). -/
theorem exec_keeps_pc {i : Instr} {s t : State} (hs : s.safe) (hf : s.canFetch) (hpc : s.PcBound s.pc.toNat)
    (hstack : ∀ a ∈ s.stack, s.ReturnAddr a) (h : exec i s = .next t) : s.PcBound t.pc.toNat := by
  rcases pcDiverters i s t hs h with hp | ⟨hp, -⟩ | ⟨hp, -⟩ | rfl | ⟨nnn, rfl | rfl | rfl⟩
  · exact hp.pcBound hf (by omega)
  · rwa [hp]
  · exact hp.pcBound hf (by omega)
  · obtain ⟨-, ⟨hp, -⟩ | hst⟩ := execRet_next h
    · rwa [hp]
    · exact (hstack t.pc (by simp [hst])).pcBound
  · cases h
    exact s.pcBound_immAddr nnn
  · obtain ⟨-, ⟨hp, -⟩ | ⟨-, -, hp⟩⟩ := execCall_next h
    · rwa [hp]
    · rw [hp]
      exact s.pcBound_immAddr nnn
  · exact execJmpV0_pcBound nnn h

/-! ## The invariant -/

/-- A fetched instruction keeps the invariant, part by part; it never writes the configuration the bounds are read
from. -/
theorem exec_keeps_inv {i : Instr} {s t : State} (hs : s.safe) (hf : s.canFetch) (hinv : s.Inv)
    (h : exec i s = .next t) : t.Inv := by
  obtain ⟨hwf, hwithin, hdepth, hstack, hpc, hpcFits, hi, hshaped, hfont⟩ := hinv
  have hconfig : t.config = s.config := (exec_within h).2 .config (config_notMem_writesPiece i)
  obtain ⟨hwf', hwithin'⟩ := exec_keeps_mem hwf hwithin h
  obtain ⟨hdepth', hstack'⟩ := exec_keeps_stack hf hdepth hstack h
  obtain ⟨hpc', hpcFits'⟩ := exec_keeps_pc hs hf ⟨hpc, hpcFits⟩ hstack h
  rw [State.Inv, State.addrMod, State.shaped, hconfig]
  exact ⟨hwf', hwithin', hdepth', hstack', hpc', hpcFits', exec_keeps_i hi h, exec_keeps_shape hshaped h, hfont⟩

/-- A state whose fetch answers a word can fetch. -/
theorem State.canFetch_of_fetchWord {s : State} {w : Word} (h : s.fetchWord = .ok w) : s.canFetch := by
  rcases s.fetchWord_eq with ⟨hpc, hodd, -⟩ | ⟨-, e⟩ | ⟨-, -, e⟩
  · exact ⟨hpc, hodd⟩
  all_goals rw [e] at h; cases h

/-- A processor step keeps the invariant: it executes a fetched instruction, or raises and changes the status alone. -/
theorem processorStep_keeps_inv {s t : State} (hs : s.safe) (hinv : s.Inv) (h : processorStep s = .next t) :
    t.Inv := by
  rcases processorStep_cases s with ⟨w, i, hf, -, e⟩ | ⟨f, e⟩ <;> rw [e] at h
  · exact exec_keeps_inv hs (State.canFetch_of_fetchWord hf) hinv h
  · cases h
    exact hinv

/-- A boundary keeps the invariant, which speaks of nothing the timer agent or the host touches (R178, R182). -/
theorem State.boundary_keeps_inv {s : State} (h : s.Inv) : s.boundary.Inv := by
  by_cases hs : s.status = .running
  · rw [s.boundary_running hs]
    exact h
  · rwa [s.boundary_ended hs]

/-- Settles O54: a step is a processor step and a boundary, and both keep the invariant. -/
theorem invariantKeptByStep : Obligations.InvariantKeptByStep := by
  intro s t hinv h
  obtain ⟨hs, u, hu, rfl⟩ := step_next h
  exact State.boundary_keeps_inv (processorStep_keeps_inv hs hinv hu)

end Sys2Proof.Machine
end

section
/-!
Encoding (30_encoding.md): an instruction decodes back from its word exactly when it is well formed, a word that decodes
is the encoding of what it decodes to, the words that do not decode are those of R76's table, and an assembler line can
be read back.
-/

namespace Sys2Proof

/-! ## From an instruction to its word and back (R70 to R75) -/

/-- The words of one major opcode 0NNN, 1NNN, … are told apart by NNN. -/
theorem packNNN_inj {op : BitVec 4} {a b : BitVec 12} : packNNN op a = packNNN op b ↔ a = b := by
  refine ⟨fun h => ?_, congrArg _⟩
  simpa using congrArg fieldNNN h

/-- CLS's word is the word 0NNN with NNN = 0E0 (R74). -/
theorem packNNN_eq_clsWord {nnn : BitVec 12} : packNNN 0x0 nnn = 0x00E0 ↔ nnn = 0x0E0 :=
  packNNN_inj (b := 0x0E0)

/-- RET's word is the word 0NNN with the NNN of RET_OPCODE (R101). -/
theorem packNNN_eq_retWord {c : Config} {nnn : BitVec 12} : packNNN 0x0 nnn = c.retWord ↔ nnn = c.retNNN :=
  packNNN_inj

/-- The decoder's three ways: CLS's word, RET's word where it is another one, and the rows of the major opcode (R74). -/
theorem decode_cases (c : Config) (w : Word) :
    (w = 0x00E0 ∧ decode c w = .ok .cls) ∨ (w ≠ 0x00E0 ∧ w = c.retWord ∧ decode c w = .ok .ret) ∨
      (w ≠ 0x00E0 ∧ w ≠ c.retWord ∧ decode c w = decodeOp w) := by
  by_cases hcls : w = 0x00E0
  · exact .inl ⟨hcls, hcls ▸ decode_cls c⟩
  by_cases hret : w = c.retWord
  · exact .inr (.inl ⟨hcls, hret, hret ▸ decode_retWord (hret ▸ hcls)⟩)
  · exact .inr (.inr ⟨hcls, hret, decode_eq_decodeOp hcls hret⟩)

/-- SYS decodes back exactly when its NNN is neither CLS's nor RET's (R74, R100). -/
theorem decode_encode_sys {c : Config} {nnn : BitVec 12} :
    decode c (encode c (.sys nnn)) = .ok (.sys nnn) ↔ (Instr.sys nnn).wellFormed c = true := by
  rw [encode, Instr.wellFormed, sysWellFormed, Bool.and_eq_true, bne_iff_ne, bne_iff_ne, ne_eq, ne_eq,
    ← packNNN_eq_clsWord, ← packNNN_eq_retWord]
  rcases decode_cases c (packNNN 0x0 nnn) with ⟨hcls, e⟩ | ⟨-, hret, e⟩ | ⟨hcls, hret, e⟩ <;> rw [e]
  · exact iff_of_false nofun fun h => h.1 hcls
  · exact iff_of_false nofun fun h => h.2 hret
  · exact iff_of_true (by simp [decodeOp]) ⟨hcls, hret⟩

/-- RET decodes back exactly when its word is not CLS's (R74, C1). -/
theorem decode_encode_ret {c : Config} :
    decode c (encode c .ret) = .ok .ret ↔ Instr.ret.wellFormed c = true := by
  rw [encode, Instr.wellFormed, bne_iff_ne, ne_eq, ← retWord_eq_cls]
  refine ⟨fun h e => ?_, decode_retWord⟩
  rw [e, decode_cls] at h
  cases h

/-- An instruction is decoded back from its word exactly when it is well formed: its fields are read from where they
were packed, and only a word 0NNN can be taken for CLS or RET (R70 to R75). -/
theorem decode_encode_iff {c : Config} {i : Instr} : decode c (encode c i) = .ok i ↔ i.wellFormed c = true := by
  cases i with
  | sys nnn => exact decode_encode_sys
  | cls => exact ⟨fun _ => rfl, fun _ => rfl⟩
  | ret => exact decode_encode_ret
  | _ =>
    refine ⟨fun _ => rfl, fun _ => ?_⟩
    rw [decode_of_op_ne_zero (by simp [encode])]
    simp [encode, decodeOp, decodeXY8, decodeXE, decodeXF]

/-- The bytes of an instruction, with any bytes after them, decode as its word does (R52, R70). -/
theorem decodeBytes_encodeBytes {c : Config} {i : Instr} (h : decode c (encode c i) = .ok i) (rest : List Byte) :
    decodeBytes c (encodeBytes c i ++ rest) = .ok (i, rest) := by
  simp [encodeBytes, bytesOfWord, decodeBytes, h]

/-- Settles O1: a well-formed instruction decodes back from its word, and so from the bytes of that word. -/
theorem decodeEncodeRoundTrip : Obligations.DecodeEncodeRoundTrip := by
  intro c i hwf
  have h : decode c (encode c i) = .ok i := decode_encode_iff.mpr hwf
  exact ⟨h, decodeBytes_encodeBytes h⟩

/-! ## From a word to its instruction and back (R74, R75) -/

/-- A word 8XYN that decodes is the encoding of what it decodes to. -/
theorem encode_of_decodeXY8 {c : Config} {x y : RegIx} {n : BitVec 4} {i : Instr} (h : decodeXY8 x y n = .ok i) :
    encode c i = packXYN 0x8 x y n := by
  unfold decodeXY8 at h
  split at h <;> cases h <;> rfl

/-- A word EXNN that decodes is the encoding of what it decodes to. -/
theorem encode_of_decodeXE {c : Config} {x : RegIx} {nn : Byte} {i : Instr} (h : decodeXE x nn = .ok i) :
    encode c i = packXNN 0xE x nn := by
  unfold decodeXE at h
  split at h <;> cases h <;> rfl

/-- A word FXNN that decodes is the encoding of what it decodes to. -/
theorem encode_of_decodeXF {c : Config} {x : RegIx} {nn : Byte} {i : Instr} (h : decodeXF x nn = .ok i) :
    encode c i = packXNN 0xF x nn := by
  unfold decodeXF at h
  split at h <;> cases h <;> rfl

/-- A word that its major opcode decodes is the encoding of what it decodes to. -/
theorem encode_of_decodeOp {c : Config} {w : Word} {i : Instr} (h : decodeOp w = .ok i) : encode c i = w := by
  have hNNN := packNNN_fields w
  have hXNN := packXNN_fields w
  have hXYN := packXYN_fields w
  unfold decodeOp at h
  split at h
  case h_1 hop | h_2 hop | h_3 hop | h_11 hop | h_12 hop => cases h; rwa [hop] at hNNN
  case h_4 hop | h_5 hop | h_7 hop | h_8 hop | h_13 hop => cases h; rwa [hop] at hXNN
  case h_14 hop => cases h; rwa [hop] at hXYN
  case h_6 hop | h_10 hop =>
    split_ifs at h with hn
    cases h
    rwa [hop, hn] at hXYN
  case h_9 hop => rw [hop] at hXYN; exact (encode_of_decodeXY8 h).trans hXYN
  case h_15 hop => rw [hop] at hXNN; exact (encode_of_decodeXE h).trans hXNN
  case h_16 =>
    have hop : fieldOp w = 0xF := by
      have := digit_cases (fieldOp w)
      tauto
    rw [hop] at hXNN
    exact (encode_of_decodeXF h).trans hXNN

/-- A word that decodes is the encoding of what it decodes to (R74, R75). -/
theorem encode_of_decode {c : Config} {w : Word} {i : Instr} (h : decode c w = .ok i) : encode c i = w := by
  rcases decode_cases c w with ⟨hw, e⟩ | ⟨-, hw, e⟩ | ⟨-, -, e⟩ <;> rw [e] at h
  · cases h
    exact hw.symm
  · cases h
    exact hw.symm
  · exact encode_of_decodeOp h

/-- Settles O2: the word is the encoding of the instruction, which is well formed because it decodes back from it. -/
theorem encodeDecodeEveryWord : Obligations.EncodeDecodeEveryWord := by
  intro c w i h
  have hw : encode c i = w := encode_of_decode h
  exact ⟨decode_encode_iff.mp (hw ▸ h), hw⟩

/-! ## The words that are no instruction (R76) -/

/-- The illegal words 8XYN, by N. -/
theorem decodeXY8_rejects_iff {x y : RegIx} {n : BitVec 4} : (∃ r, decodeXY8 x y n = .error r) ↔
    n ∈ ([0x8, 0x9, 0xA, 0xB, 0xC, 0xD, 0xF] : List (BitVec 4)) := by
  rcases digit_cases n with
      rfl | rfl | rfl | rfl | rfl | rfl | rfl | rfl | rfl | rfl | rfl | rfl | rfl | rfl | rfl | rfl <;>
    simp [decodeXY8]

/-- The illegal words EXNN, by NN. -/
theorem decodeXE_rejects_iff {x : RegIx} {nn : Byte} : (∃ r, decodeXE x nn = .error r) ↔
    nn ∉ ([0x9E, 0xA1] : List Byte) := by
  unfold decodeXE
  split <;> simp_all

/-- The illegal words FXNN, by NN. -/
theorem decodeXF_rejects_iff {x : RegIx} {nn : Byte} : (∃ r, decodeXF x nn = .error r) ↔
    nn ∉ ([0x07, 0x0A, 0x15, 0x18, 0x1E, 0x29, 0x33, 0x55, 0x65] : List Byte) := by
  unfold decodeXF
  split <;> simp_all

/-- A row that needs a fixed digit rejects exactly the other digits. -/
theorem rejects_ite_iff {p : Prop} [Decidable p] {i : Instr} {e : Reject} :
    (∃ r, (if p then Except.ok i else .error e) = .error r) ↔ ¬p := by
  split <;> simp_all

/-- CLS and RET take words from SYS alone, so a word is illegal by its major opcode (R74). -/
theorem decode_rejects_iff {c : Config} {w : Word} :
    (∃ r, decode c w = .error r) ↔ ∃ r, decodeOp w = .error r := by
  by_cases hop : fieldOp w = 0
  · rcases decode_cases c w with ⟨-, e⟩ | ⟨-, -, e⟩ | ⟨-, -, e⟩ <;> simp [e, decodeOp, hop]
  · rw [decode_of_op_ne_zero hop]

/-- Settles O3: the major opcode selects the row of the table, and the three opcodes that a further digit or byte selects
from have their own lemmas. -/
theorem illegalWordsExactly : Obligations.IllegalWordsExactly := by
  intro c w
  rw [decode_rejects_iff, ← decodeXY8_rejects_iff (x := fieldX w) (y := fieldY w),
    ← decodeXE_rejects_iff (x := fieldX w), ← decodeXF_rejects_iff (x := fieldX w)]
  rcases digit_cases (fieldOp w) with
      hop | hop | hop | hop | hop | hop | hop | hop | hop | hop | hop | hop | hop | hop | hop | hop <;>
    simp [decodeOp, hop, rejects_ite_iff]

/-! ## Reading an assembler line (R78 to R80) -/

/-- The instruction an assembler line stands for: the operation name selects it, together with the kinds of the operands
where names are shared (R79). -/
def AsmLine.instr? (l : AsmLine) : Option Instr :=
  match l.operands with
  | [] =>
    match l.opname with
    | "cls" => some .cls
    | "ret" => some .ret
    | _ => none
  | [.addr nnn] =>
    match l.opname with
    | "sys" => some (.sys nnn)
    | "jmp" => some (.jmp nnn)
    | "call" => some (.call nnn)
    | _ => none
  | [.addrV0 nnn] => if l.opname = "jmp" then some (.jmpV0 nnn) else none
  | [.reg x] =>
    match l.opname with
    | "skpp" => some (.skipKp x)
    | "skpnp" => some (.skipKnp x)
    | "waitk" => some (.ldK x)
    | "ldhs" => some (.ldF x)
    | "ldbcd" => some (.ldB x)
    | _ => none
  | [.number n, .reg x] =>
    match l.opname with
    | "skpe" => some (.skipEImm x (BitVec.ofNat 8 n))
    | "skpne" => some (.skipNeImm x (BitVec.ofNat 8 n))
    | "mov" => some (.ldImm x (BitVec.ofNat 8 n))
    | "add" => some (.addImm x (BitVec.ofNat 8 n))
    | "rand" => some (.rand x (BitVec.ofNat 8 n))
    | _ => none
  | [.reg y, .reg x] =>
    match l.opname with
    | "skpe" => some (.skipEReg x y)
    | "skipne" => some (.skipNeReg x y)
    | "mov" => some (.ldReg x y)
    | "or" => some (.or x y)
    | "and" => some (.and x y)
    | "xor" => some (.xor x y)
    | "add" => some (.addReg x y)
    | "sub" => some (.sub x y)
    | "subn" => some (.subn x y)
    | "shr" => some (.shr x y)
    | "shl" => some (.shl x y)
    | _ => none
  | [.addr nnn, .index] => if l.opname = "mov" then some (.stI nnn) else none
  | [.delayTimer, .reg x] => if l.opname = "mov" then some (.ldDt x) else none
  | [.reg x, .delayTimer] => if l.opname = "mov" then some (.stDt x) else none
  | [.reg x, .soundTimer] => if l.opname = "mov" then some (.stSt x) else none
  | [.reg x, .index] =>
    match l.opname with
    | "add" => some (.addI x)
    | "movm" => some (.stRegs x)
    | _ => none
  | [.index, .reg x] => if l.opname = "movm" then some (.ldRegs x) else none
  | [.reg x, .reg y, .number n] => if l.opname = "draw" then some (.draw x y (BitVec.ofNat 4 n)) else none
  | _ => none

/-- The line of an instruction reads back as that instruction. -/
theorem instr?_asmLine (i : Instr) : i.asmLine.instr? = some i := by
  cases i <;> simp [Instr.asmLine, AsmLine.instr?]

/-- No line has more operands than DRAW's (R78). -/
theorem length_asmLine_operands_le (i : Instr) : i.asmLine.operands.length ≤ 3 := by
  cases i <;> simp [Instr.asmLine]

/-- Settles O60: two instructions with one line are both what that line reads back as. -/
theorem asmLinesUnambiguous : Obligations.AsmLinesUnambiguous := by
  refine ⟨length_asmLine_operands_le, fun i j h => Option.some.inj ?_⟩
  rw [← instr?_asmLine i, h, instr?_asmLine j]

end Sys2Proof

namespace Sys2Proof.Machine

/-- Settles O8: the decoder's rejection is a raise, and no boundary follows the end of the run (R174). -/
theorem illegalWordEndsRun : Obligations.IllegalWordEndsRun := by
  intro s w r hs hf hd
  have hp : processorStep s = s.raise (.illegalInstruction s.pc w) := by
    simp only [processorStep, hf, State.orRaise_ok, hd]
  rw [step_of_running hs, hp]
  exact congrArg _ (s.boundary_faulted _)

end Sys2Proof.Machine
end

section
/-!
System and control flow (40_system_and_control_flow.md): the words of SYS, RET, JMP, CALL and JMP_V0, and what each of
the five leaves in the status, pc and the return stack, with nothing else changed.
-/

namespace Sys2Proof

/-- A word decodes to the well-formed instruction it is the encoding of (R74, R75). -/
theorem decode_of_encode_eq {c : Config} {w : Word} {i : Instr} (hwf : i.wellFormed c = true) (h : encode c i = w) :
    decode c w = .ok i :=
  h ▸ decode_encode_iff.mpr hwf

/-- A word with a given major opcode is that opcode packed with the word's NNN (R72). -/
theorem packNNN_of_fieldOp {w : Word} {op : BitVec 4} (h : fieldOp w = op) : packNNN op (fieldNNN w) = w :=
  h ▸ packNNN_fields w

/-- A word 0NNN that is neither CLS's nor RET's is SYS's (R100). -/
theorem decode_sysWord {c : Config} {w : Word} (hop : fieldOp w = 0x0) (hcls : w ≠ 0x00E0) (hret : w ≠ c.retWord) :
    decode c w = .ok (.sys (fieldNNN w)) := by
  simp [decode_eq_decodeOp hcls hret, decodeOp, hop]

end Sys2Proof

namespace Sys2Proof.Machine

/-- An instruction that may write at most the registers `regs`, and each piece that is not in `pieces` only where it
ends up the same, keeps the frame of the two. -/
theorem frame_of_exec {i : Instr} {s t : State} {regs : List RegIx} {pieces : List Piece} (h : exec i s = .next t)
    (hregs : ∀ r, r ∉ regs → writesReg i r = false)
    (hpieces : ∀ p ∈ writesPiece i, p ∈ pieces ∨ p.same s t) : Frame regs pieces s t := by
  obtain ⟨hreg, hpiece⟩ := exec_within h
  refine ⟨fun r hr => hreg r (hregs r hr), fun p hp => ?_⟩
  by_cases hw : p ∈ writesPiece i
  · exact (hpieces p hw).resolve_left hp
  · exact hpiece p hw

/-! ## SYS (R100) -/

/-- Settles O9: SYS ends the run, its frame is that of `exec`, and an ended run has no step. -/
theorem sysAborts : Obligations.SysAborts := by
  refine ⟨fun _ _ => decode_sysWord, retWord_default, fun nnn s => ?_⟩
  have h : exec (.sys nnn) s = .next { s with status := .aborted nnn } := rfl
  refine ⟨_, h, rfl, frame_of_exec h (by simp [writesReg]) (by simp [writesPiece]), fun u hu => ?_⟩
  obtain ⟨f, hf⟩ := step_of_not_safe (s := { s with status := .aborted nnn }) nofun
  cases hf.symm.trans hu

/-! ## RET (R101) -/

/-- RET on a stack that is not empty moves its newest entry to pc, as it is (R25, R101). -/
theorem exec_ret_of_stack_cons {s : State} {a : Addr} {rest : List Addr} (h : s.stack = a :: rest) :
    ∃ t, exec .ret s = .next t ∧ t.pc = a ∧ t.stack = rest ∧ Frame [] [.pc, .stack] s t := by
  have hexec : exec .ret s = .next { s with pc := a, stack := rest } := by
    rw [exec, execRet, State.pop, h, State.orRaise_ok]
  exact ⟨_, hexec, rfl, rfl, frame_of_exec hexec (by simp [writesReg]) (by simp [writesPiece, Piece.same])⟩

/-- RET on an empty stack raises StackUnderflow (F5). -/
theorem exec_ret_of_stack_nil {s : State} (h : s.stack = []) :
    exec .ret s = .next { s with status := .faulted (.stackUnderflow s.pc) } := by
  have hpop : s.pop = .error (.stackUnderflow s.pc) := by rw [State.pop, h]
  rw [exec, execRet, hpop, State.orRaise_error]

/-- Settles O10: RET's word is read before 0NNN, and the stack is empty or has a newest entry. -/
theorem retPops : Obligations.RetPops :=
  ⟨rfl, fun c h => decode_retWord (mt (retWord_eq_cls c).mp h), fun _ _ _ => exec_ret_of_stack_cons,
    fun _ => exec_ret_of_stack_nil⟩

/-! ## JMP and JMP_V0 (R102, R104) -/

/-- Settles O11: JMP's word is 1NNN, and its one write is that of pc. -/
theorem jmpLoadsPc : Obligations.JmpLoadsPc := by
  refine ⟨fun c w hop => decode_of_encode_eq rfl (packNNN_of_fieldOp hop), fun nnn s => ?_⟩
  have h : exec (.jmp nnn) s = .next { s with pc := immAddr nnn } := rfl
  exact ⟨_, h, immAddr_toNat nnn, frame_of_exec h (by simp [writesReg]) (by simp [writesPiece])⟩

/-- The sum of BNNN fits 16 bits: it is 0xFFF + 0xFF at most (R104). -/
theorem jmpV0_sum_lt (nnn : BitVec 12) (v0 : Byte) : nnn.toNat + v0.toNat < 65536 := by
  have := nnn.isLt
  have := v0.isLt
  omega

/-- Settles O13: JMP_V0's word is BNNN, its one write is that of pc, and 16 bits hold the whole sum. -/
theorem jmpV0Adds : Obligations.JmpV0Adds := by
  refine ⟨fun c w hop => decode_of_encode_eq rfl (packNNN_of_fieldOp hop), fun nnn s => ?_⟩
  have h : exec (.jmpV0 nnn) s = .next { s with pc := s.toAddr (nnn.toNat + (s.reg 0x0).toNat) } := rfl
  have hpc := s.toAddr_toNat (nnn.toNat + (s.reg 0x0).toNat)
  refine ⟨_, h, hpc, fun hwidth => ?_, frame_of_exec h (by simp [writesReg]) (by simp [writesPiece])⟩
  rw [hpc, s.addrMod_bits16 hwidth, Nat.mod_eq_of_lt (jmpV0_sum_lt nnn _)]

/-! ## CALL (R103) -/

/-- CALL on a stack with room pushes the address after it and jumps (R25, R103). -/
theorem exec_call_of_room (nnn : BitVec 12) {s : State} (h : s.stack.length < s.config.stackDepth) :
    ∃ t, exec (.call nnn) s = .next t ∧ t.pc.toNat = nnn.toNat ∧
      (∃ a, t.stack = a :: s.stack ∧ a.toNat = (s.pc.toNat + 2) % s.addrMod) ∧ Frame [] [.pc, .stack] s t := by
  have hexec : exec (.call nnn) s =
      .next { s with pc := immAddr nnn, stack := s.toAddr (s.pc.toNat + 2) :: s.stack } := by
    rw [exec, execCall, State.push, if_pos h, State.orRaise_ok]
  exact ⟨_, hexec, immAddr_toNat nnn, ⟨_, rfl, s.toAddr_toNat _⟩,
    frame_of_exec hexec (by simp [writesReg]) (by simp [writesPiece, Piece.same])⟩

/-- CALL on a full stack raises StackOverflow (F4). -/
theorem exec_call_of_full (nnn : BitVec 12) {s : State} (h : s.config.stackDepth ≤ s.stack.length) :
    exec (.call nnn) s = .next { s with status := .faulted (.stackOverflow s.pc) } := by
  rw [exec, execCall, State.push, if_neg (Nat.not_lt.mpr h), State.orRaise_error]

/-- Settles O12: CALL's word is 2NNN, and the stack has room or is full. -/
theorem callPushesReturn : Obligations.CallPushesReturn :=
  ⟨fun _ _ hop => decode_of_encode_eq rfl (packNNN_of_fieldOp hop), fun nnn _ => exec_call_of_room nnn,
    fun nnn _ => exec_call_of_full nnn⟩

/-- Settles O14: the newest entry RET finds is the address after the CALL, and the entries under it are the stack from
before. -/
theorem callThenRetReturns : Obligations.CallThenRetReturns := by
  intro nnn s hroom
  obtain ⟨t, ht, -, ⟨a, hpush, ha⟩, -⟩ := exec_call_of_room nnn hroom
  refine ⟨t, ht, fun u hu => ?_⟩
  obtain ⟨r, hr, hpc, hstack, hframe⟩ := exec_ret_of_stack_cons (hu.trans hpush)
  exact ⟨r, hr, (congrArg BitVec.toNat hpc).trans ha, hstack, hframe⟩

end Sys2Proof.Machine
end

section
/-!
The compare skips (41_skips.md) and the words the spec writes out: each word is the encoding of the instruction it stands
for, and a skip moves pc by 4 or 2 and writes nothing else.
-/

namespace Sys2Proof

/-- Settles O4: each word is the encoding of a well-formed instruction. -/
theorem specWordsDecode : Obligations.SpecWordsDecode :=
  ⟨decodeBytes_pair_eq_ok_iff.mpr (decode_of_encode_eq rfl rfl), decode_of_encode_eq rfl rfl,
    decode_of_encode_eq rfl rfl, decode_cls _, decode_of_encode_eq rfl rfl, decode_of_encode_eq rfl rfl,
    decode_of_encode_eq rfl rfl, decode_of_encode_eq rfl rfl, decode_of_encode_eq rfl rfl, decode_of_encode_eq rfl rfl⟩

/-- A word with a given major opcode is that opcode packed with the word's X and NN (R72). -/
theorem packXNN_of_fieldOp {w : Word} {op : BitVec 4} (h : fieldOp w = op) : packXNN op (fieldX w) (fieldNN w) = w :=
  h ▸ packXNN_fields w

/-- A word with a given major opcode and last digit is those two packed with the word's X and Y (R72). -/
theorem packXYN_of_fieldOp_fieldN {w : Word} {op n : BitVec 4} (hop : fieldOp w = op) (hn : fieldN w = n) :
    packXYN op (fieldX w) (fieldY w) n = w :=
  hop ▸ hn ▸ packXYN_fields w

end Sys2Proof

namespace Sys2Proof.Machine

/-- A skip writes pc alone (R114). -/
theorem frame_skipIf (s : State) (taken : Bool) : Frame [] [.pc] s (s.skipIf taken) := by
  refine ⟨fun r _ => State.skipIf_reg s r taken, fun p hp => ?_⟩
  cases p <;> simp [Piece.same] at hp ⊢

/-- An instruction whose whole meaning is a skip adds to pc what the skip adds, and keeps everything else (R114). -/
theorem exec_skips {i : Instr} {s : State} {taken : Bool} {n : Nat} (h : exec i s = .next (s.skipIf taken))
    (hn : (if taken then 4 else 2) = n) : ∃ t, exec i s = .next t ∧ PcPlus s t n ∧ Frame [] [.pc] s t :=
  ⟨_, h, hn ▸ pcPlus_skipIf s taken, frame_skipIf s taken⟩

/-- Settles O15: the words are 3XNN and 4XNN, and the two skips are taken on `==` and on `!=`. -/
theorem skipImmediate : Obligations.SkipImmediate := by
  refine ⟨fun c w hop => decode_of_encode_eq rfl (packXNN_of_fieldOp hop),
    fun c w hop => decode_of_encode_eq rfl (packXNN_of_fieldOp hop), fun x nn s => ⟨?_, ?_⟩⟩
  · exact exec_skips (taken := s.reg x == nn) rfl (by simp)
  · exact exec_skips (taken := s.reg x != nn) rfl (by simp)

/-- Settles O16: the words are 5XY0 and 9XY0, and the model compares V[Y] with V[X] where the statement compares V[X]
with V[Y]. -/
theorem skipRegister : Obligations.SkipRegister := by
  refine ⟨fun c w hop hn => decode_of_encode_eq rfl (packXYN_of_fieldOp_fieldN hop hn),
    fun c w hop hn => decode_of_encode_eq rfl (packXYN_of_fieldOp_fieldN hop hn), fun x y s => ⟨?_, ?_⟩⟩
  · exact exec_skips (taken := s.reg y == s.reg x) rfl (by simp [eq_comm (a := s.reg y)])
  · exact exec_skips (taken := s.reg y != s.reg x) rfl (by simp [eq_comm (a := s.reg y)])

end Sys2Proof.Machine
end

section
/-!
Loads, logic, arithmetic, shifts and RAND (42_load_and_arithmetic.md): an instruction of this file writes one result to
V[X], or a flag to VF and a result to V[X], and advances; what remains of each rule is the value written.
-/

namespace Sys2Proof.Machine

/-- What lies within the write tables lies within the frame that lists the same registers. -/
theorem Within.frame {w : RegIx → Bool} {regs : List RegIx} {pieces : List Piece} {s t : State}
    (h : Within w pieces s t) (hregs : ∀ r, r ∉ regs → w r = false) : Frame regs pieces s t := by
  obtain ⟨hreg, hpiece⟩ := h
  exact ⟨fun r hr => hreg r (hregs r hr), hpiece⟩

/-! ## One result (R120 to R125, R131) -/

/-- An instruction whose whole meaning is a load leaves the byte in V[X], VF included, and advances (R120, R132). -/
theorem exec_loads {i : Instr} {s : State} {x : RegIx} {b : Byte} (h : exec i s = s.load x b) :
    ∃ t, exec i s = .next t ∧ t.reg x = b ∧ PcPlus s t 2 ∧ Frame [x] [.pc] s t :=
  ⟨_, h, s.reg_setReg_self x b, pcPlus_advance rfl rfl, (within_load s x b).frame (by simp)⟩

/-- Settles O17: the words are 6XNN and 8XY0, and both instructions are loads. -/
theorem loadImmediateAndRegister : Obligations.LoadImmediateAndRegister :=
  ⟨fun _ _ hop => decode_of_encode_eq rfl (packXNN_of_fieldOp hop),
    fun _ _ hop hn => decode_of_encode_eq rfl (packXYN_of_fieldOp_fieldN hop hn),
    fun _ _ _ => exec_loads rfl, fun _ _ _ => exec_loads rfl⟩

/-- Settles O18: the word is 7XNN, and the sum of two bytes is a sum modulo 256. -/
theorem addImmediateWraps : Obligations.AddImmediateWraps := by
  refine ⟨fun _ _ hop => decode_of_encode_eq rfl (packXNN_of_fieldOp hop), fun x nn s => ?_⟩
  obtain ⟨t, ht, hx, hrest⟩ := exec_loads (i := .addImm x nn) (s := s) rfl
  exact ⟨t, ht, by rw [hx, BitVec.toNat_add], hrest⟩

/-- Settles O19: the words are 8XY1 to 8XY3, and the three operations on bytes act bit by bit. -/
theorem bitwiseOperations : Obligations.BitwiseOperations := by
  refine ⟨fun _ _ hop hn => decode_of_encode_eq rfl (packXYN_of_fieldOp_fieldN hop hn),
    fun _ _ hop hn => decode_of_encode_eq rfl (packXYN_of_fieldOp_fieldN hop hn),
    fun _ _ hop hn => decode_of_encode_eq rfl (packXYN_of_fieldOp_fieldN hop hn), fun x y s => ⟨?or, ?and, ?xor⟩⟩
  case or =>
    obtain ⟨t, ht, hx, hrest⟩ := exec_loads (i := .or x y) (s := s) rfl
    exact ⟨t, ht, fun k _ => by rw [hx, BitVec.getLsbD_or], hrest⟩
  case and =>
    obtain ⟨t, ht, hx, hrest⟩ := exec_loads (i := .and x y) (s := s) rfl
    exact ⟨t, ht, fun k _ => by rw [hx, BitVec.getLsbD_and], hrest⟩
  case xor =>
    obtain ⟨t, ht, hx, hrest⟩ := exec_loads (i := .xor x y) (s := s) rfl
    exact ⟨t, ht, fun k _ => by rw [hx, BitVec.getLsbD_xor], hrest⟩

/-- No bit outside a mask survives it (R131). -/
theorem and_mask_and_not_mask (b mask : Byte) : b &&& mask &&& ~~~mask = 0 := by
  rw [BitVec.and_assoc, BitVec.and_not_self]
  exact BitVec.and_zero

/-- Settles O25: the word is CXNN, and the load happens in the state whose draw counter has moved on. -/
theorem randMasksFreeByte : Obligations.RandMasksFreeByte := by
  refine ⟨fun _ _ hop => decode_of_encode_eq rfl (packXNN_of_fieldOp hop), fun x nn s => ?_⟩
  have hx := State.reg_setReg_self { s with draws := s.draws + 1 } x (Config.freeByte s.draws &&& nn)
  exact ⟨_, rfl, hx, (congrArg (· &&& ~~~nn) hx).trans (and_mask_and_not_mask _ nn), rfl, pcPlus_advance rfl rfl,
    (within_loadDraw s x _).frame (by simp)⟩

/-! ## A flag and a result (R9, R126 to R130) -/

/-- An instruction that writes a flag to VF and a result to V[X] leaves both; with X = 0xF the one that
VF_WRITE_ORDER puts second (R9). -/
theorem exec_loadsFlagged {i : Instr} {s : State} {x : RegIx} {flag result : Byte}
    (h : exec i s = s.loadFlagged x flag result) : ∃ t, exec i s = .next t ∧
      (x ≠ 0xF ∨ s.config.vfWriteOrder = .flagThenResult → t.reg x = result) ∧
      (x ≠ 0xF ∨ s.config.vfWriteOrder = .resultThenFlag → t.reg 0xF = flag) ∧
      PcPlus s t 2 ∧ Frame [x, 0xF] [.pc] s t := by
  refine ⟨_, h, fun hresult => ?_, fun hflag => ?_, pcPlus_advance (s.writeFlagged_pc ..) (s.writeFlagged_config ..),
    (within_loadFlagged s x flag result).frame fun r hr => decide_eq_false (by simpa [vf] using hr)⟩
  · rw [State.advance_reg, State.reg_writeFlagged, if_pos ⟨rfl, hresult⟩]
  · have hlast : ¬(vf = x ∧ (x ≠ vf ∨ s.config.vfWriteOrder = .flagThenResult)) := by
      rintro ⟨rfl, hne | horder⟩
      · exact hne rfl
      · cases horder.symm.trans (hflag.resolve_left fun hne => hne rfl)
    exact (State.reg_writeFlagged ..).trans ((if_neg hlast).trans (if_pos rfl))

/-- A flag is 1 when it is set and 0 when it is not (R21). -/
theorem flagByte_toNat (f : Bool) : (flagByte f).toNat = f.toNat := by
  cases f <;> rfl

/-- The carry is what the sum holds above its low eight bits (R126). -/
theorem carryFlag_toNat (a b : Byte) : (carryFlag a b).toNat = (a.toNat + b.toNat) / 256 := by
  have := a.isLt
  have := b.isLt
  rw [carryFlag, flagByte_toNat]
  by_cases hcarry : a.toNat + b.toNat > 255
  · simp only [hcarry, decide_true, Bool.toNat_true]; omega
  · simp only [hcarry, decide_false, Bool.toNat_false]; omega

/-- Settles O20: the word is 8XY4, and the two writes are the sum modulo 256 and the carry. -/
theorem addRegSumAndCarry : Obligations.AddRegSumAndCarry := by
  refine ⟨fun _ _ hop hn => decode_of_encode_eq rfl (packXYN_of_fieldOp_fieldN hop hn), fun x y s => ?_⟩
  obtain ⟨t, ht, hresult, hflag, hrest⟩ := exec_loadsFlagged (i := .addReg x y) (s := s) rfl
  exact ⟨t, ht, fun h => by rw [hresult h, BitVec.toNat_add], fun h => by rw [hflag h, carryFlag_toNat], hrest⟩

/-- A difference of bytes is the difference modulo 256 (R127, R129). -/
theorem toNat_sub_byte (a b : Byte) : (a - b).toNat = (a.toNat + 256 - b.toNat) % 256 := by
  rw [BitVec.toNat_sub]
  have := b.isLt
  congr 1
  omega

/-- There is no borrow above equality, and at equality where SUB_FLAG_ON_EQUAL says so (R127, R129, C3). -/
theorem State.noBorrowFlag_eq (s : State) (a b : Byte) : s.noBorrowFlag a b =
    if a.toNat > b.toNat ∨ (a.toNat = b.toNat ∧ s.config.subFlagOnEqual = true) then 1 else 0 := by
  by_cases hab : a = b
  · simp [State.noBorrowFlag, flagByte, hab]
  · have hne : a.toNat ≠ b.toNat := mt BitVec.eq_of_toNat_eq hab
    simp [State.noBorrowFlag, flagByte, hab, hne]

/-- An instruction whose whole meaning is a subtraction writes the difference modulo 256 and, as the
flag, whether there was no borrow (R127, R129). -/
theorem exec_subtracts {i : Instr} {s : State} {x : RegIx} {a b : Byte}
    (h : exec i s = s.loadFlagged x (s.noBorrowFlag a b) (a - b)) : ∃ t, exec i s = .next t ∧
      (x ≠ 0xF ∨ s.config.vfWriteOrder = .flagThenResult → (t.reg x).toNat = (a.toNat + 256 - b.toNat) % 256) ∧
      (x ≠ 0xF ∨ s.config.vfWriteOrder = .resultThenFlag → t.reg 0xF =
        if a.toNat > b.toNat ∨ (a.toNat = b.toNat ∧ s.config.subFlagOnEqual = true) then 1 else 0) ∧
      PcPlus s t 2 ∧ Frame [x, 0xF] [.pc] s t := by
  obtain ⟨t, ht, hresult, hflag, hrest⟩ := exec_loadsFlagged h
  exact ⟨t, ht, fun ho => by rw [hresult ho, toNat_sub_byte], fun ho => by rw [hflag ho, State.noBorrowFlag_eq], hrest⟩

/-- Settles O21: the word is 8XY5, and V[Y] is subtracted from V[X]. -/
theorem subDifferenceAndBorrow : Obligations.SubDifferenceAndBorrow :=
  ⟨fun _ _ hop hn => decode_of_encode_eq rfl (packXYN_of_fieldOp_fieldN hop hn), fun _ _ _ => exec_subtracts rfl⟩

/-- Settles O22: the word is 8XY7, and V[X] is subtracted from V[Y]. -/
theorem subnDifferenceAndBorrow : Obligations.SubnDifferenceAndBorrow :=
  ⟨fun _ _ hop hn => decode_of_encode_eq rfl (packXYN_of_fieldOp_fieldN hop hn), fun _ _ _ => exec_subtracts rfl⟩

/-- The source of a shift, as the one choice SHIFT_SOURCE makes (R128, R130, U1). -/
theorem State.shiftOperand_eq_ite (s : State) (x y : RegIx) :
    s.shiftOperand x y = if s.config.shiftSource = .vx then s.reg x else s.reg y := by
  rcases s.shiftOperand_eq x y with ⟨hsource, h⟩ | ⟨hsource, h⟩ <;> simp [hsource, h]

/-- The flag that a bit of a byte becomes is that binary digit of it. -/
theorem flagByte_getLsbD_toNat (b : Byte) (k : Nat) : (flagByte (b.getLsbD k)).toNat = b.toNat / 2 ^ k % 2 := by
  rw [flagByte_toNat, BitVec.getLsbD, Nat.toNat_testBit]

/-- The bit a right shift moves out is the remainder of the halving (R128). -/
theorem shrFlag_toNat (b : Byte) : (shrFlag b).toNat = b.toNat % 2 := by
  rw [shrFlag, flagByte_getLsbD_toNat, pow_zero, Nat.div_one]

/-- The bit a left shift moves out is the top one, so nothing lies above it (R130). -/
theorem shlFlag_toNat (b : Byte) : (shlFlag b).toNat = b.toNat / 128 := by
  rw [shlFlag, flagByte_getLsbD_toNat]
  have := b.isLt
  omega

/-- A right shift by one halves a byte (R128). -/
theorem toNat_ushiftRight_one (b : Byte) : (b >>> 1).toNat = b.toNat / 2 := by
  rw [BitVec.toNat_ushiftRight, Nat.shiftRight_one]

/-- A left shift by one doubles a byte modulo 256 (R130). -/
theorem toNat_shiftLeft_one (b : Byte) : (b <<< 1).toNat = 2 * b.toNat % 256 := by
  rw [BitVec.toNat_shiftLeft, Nat.shiftLeft_eq, pow_one, Nat.mul_comm]

/-- Settles O23: the word is 8XY6, and the two writes are the half of the source and its remainder. -/
theorem shrResultAndBit : Obligations.ShrResultAndBit := by
  refine ⟨fun _ _ hop hn => decode_of_encode_eq rfl (packXYN_of_fieldOp_fieldN hop hn), fun x y s => ?_⟩
  rw [← s.shiftOperand_eq_ite x y]
  obtain ⟨t, ht, hresult, hflag, hrest⟩ := exec_loadsFlagged (i := .shr x y) (s := s) rfl
  exact ⟨t, ht, fun h => by rw [hresult h, toNat_ushiftRight_one], fun h => by rw [hflag h, shrFlag_toNat], hrest⟩

/-- Settles O24: the word is 8XYE, and the two writes are the low eight bits of twice the source and the bit above
them. -/
theorem shlResultAndBit : Obligations.ShlResultAndBit := by
  refine ⟨fun _ _ hop hn => decode_of_encode_eq rfl (packXYN_of_fieldOp_fieldN hop hn), fun x y s => ?_⟩
  rw [← s.shiftOperand_eq_ite x y]
  obtain ⟨t, ht, hresult, hflag, hrest⟩ := exec_loadsFlagged (i := .shl x y) (s := s) rfl
  exact ⟨t, ht, fun h => by rw [hresult h, toNat_shiftLeft_one], fun h => by rw [hflag h, shlFlag_toNat], hrest⟩

end Sys2Proof.Machine
end

section
/-!
Index register and memory (43_index_and_memory.md): the words of ST_I, ADD_I, LD_F, LD_B, ST_REGS and LD_REGS; what each
leaves in I, VF, the registers and memory; and the one fault each of the last four can raise.
-/

namespace Sys2Proof

/-- A word with a given major opcode and low byte is those two packed with the word's X (R72). -/
theorem packXNN_of_fieldOp_fieldNN {w : Word} {op : BitVec 4} {nn : Byte} (hop : fieldOp w = op)
    (hnn : fieldNN w = nn) : packXNN op (fieldX w) nn = w :=
  hop ▸ hnn ▸ packXNN_fields w

end Sys2Proof

namespace Sys2Proof.Machine

/-! ## ST_I and ADD_I (R140, R141) -/

/-- Settles O26: the word is ANNN, and the one write beside the advance is that of I. -/
theorem stISetsIndex : Obligations.StISetsIndex := by
  refine ⟨fun _ _ hop => decode_of_encode_eq rfl (packNNN_of_fieldOp hop), fun nnn s => ?_⟩
  have h : exec (.stI nnn) s = .next { s with i := immAddr nnn }.advance := rfl
  exact ⟨_, h, immAddr_toNat nnn, pcPlus_advance rfl rfl, frame_of_exec h (by simp [writesReg]) (by simp [writesPiece])⟩

/-- The flag of ADD_I is 1 above 0xFFF and else 0 (R141). -/
theorem rangeFlag_eq_ite (sum : Nat) : rangeFlag sum = if sum > 0xFFF then 1 else 0 := by
  simp [rangeFlag, flagByte]

/-- Settles O27: the word is FX1E, and both writes take the sum of I and V[X] as they were before. -/
theorem addISumAndRangeFlag : Obligations.AddISumAndRangeFlag := by
  refine ⟨fun _ _ hop hnn => decode_of_encode_eq rfl (packXNN_of_fieldOp_fieldNN hop hnn), fun x s => ?_⟩
  have h : exec (.addI x) s = .next { s.setReg vf (rangeFlag (s.i.toNat + (s.reg x).toNat)) with
      i := s.toAddr (s.i.toNat + (s.reg x).toNat) }.advance := rfl
  exact ⟨_, h, s.toAddr_toNat _, (s.reg_setReg_self vf _).trans (rangeFlag_eq_ite _), pcPlus_advance rfl rfl,
    frame_of_exec h (fun r hr => decide_eq_false (by simpa [vf] using hr)) (by simp [writesPiece])⟩

/-! ## LD_F (R142) -/

/-- LD_F on a hexadecimal digit loads I with the address of its glyph (R142). -/
theorem exec_ldF_of_digit {x : RegIx} {s : State} (hdigit : (s.reg x).toNat ≤ 0xF) :
    ∃ t, exec (.ldF x) s = .next t ∧
      t.i.toNat = (s.config.fontBase + 5 * (s.reg x).toNat) % s.addrMod ∧ PcPlus s t 2 ∧ Frame [] [.i, .pc] s t := by
  have h : exec (.ldF x) s = .next { s with i := s.glyphAddr (s.reg x).toNat }.advance := by
    rw [exec, execLdF, State.digitOperand, if_pos hdigit, State.orRaise_ok]
  exact ⟨_, h, s.toAddr_toNat _, pcPlus_advance rfl rfl,
    frame_of_exec h (by simp [writesReg]) (by simp [writesPiece, Piece.same])⟩

/-- LD_F above 0xF raises BadFontDigit (F7). -/
theorem exec_ldF_of_not_digit {x : RegIx} {s : State} (hdigit : 0xF < (s.reg x).toNat) :
    exec (.ldF x) s = .next { s with status := .faulted (.badFontDigit s.pc (s.reg x)) } := by
  rw [exec, execLdF, State.digitOperand, if_neg hdigit.not_ge, State.orRaise_error]

/-- Settles O28: the word is FX29, and V[X] is a hexadecimal digit or above 0xF. -/
theorem ldFGlyphAddress : Obligations.LdFGlyphAddress :=
  ⟨fun _ _ hop hnn => decode_of_encode_eq rfl (packXNN_of_fieldOp_fieldNN hop hnn), fun _ _ => exec_ldF_of_digit,
    fun _ _ => exec_ldF_of_not_digit⟩

/-! ## The transfers, by whether the range lies inside memory (R51) -/

section
variable {s : State} {a n : Nat} {bytes : List Byte}

/-- A store inside memory writes its bytes (R51). -/
theorem State.storeBytes_of_inside (h : a + bytes.length ≤ s.config.memSize) :
    s.storeBytes a bytes = .ok { s with mem := s.mem.writeBytes a bytes } := by
  rw [State.storeBytes, s.transferFault_none (.inr h)]

/-- A store that passes the last address raises AddressOutOfRange (F3). -/
theorem State.storeBytes_of_outside (hn : 0 < bytes.length) (h : s.config.memSize < a + bytes.length) :
    s.storeBytes a bytes = .error (.addressOutOfRange s.pc (max a s.config.memSize)) := by
  rw [State.storeBytes, s.transferFault_some hn h]

/-- A load inside memory answers the bytes there (R51). -/
theorem State.loadBytes_of_inside (h : a + n ≤ s.config.memSize) : s.loadBytes a n = .ok (s.mem.readBytes a n) := by
  rw [State.loadBytes, s.transferFault_none (.inr h)]

/-- A load that passes the last address raises AddressOutOfRange (F3). -/
theorem State.loadBytes_of_outside (hn : 0 < n) (h : s.config.memSize < a + n) :
    s.loadBytes a n = .error (.addressOutOfRange s.pc (max a s.config.memSize)) := by
  rw [State.loadBytes, s.transferFault_some hn h]

end

/-! ## LD_B (R143) -/

/-- The digits of a byte are three bytes. -/
theorem length_bcdDigits (b : Byte) : (bcdDigits b).length = 3 := rfl

/-- A number below 256 is what the byte made of it holds. -/
theorem toNat_ofNat_byte {n : Nat} (h : n < 256) : (BitVec.ofNat 8 n).toNat = n :=
  Nat.mod_eq_of_lt h

/-- After the digits of a byte are stored, the three addresses read as its hundreds, tens and units (R143). -/
theorem read_writeBytes_bcdDigits {m : Memory} (hwf : m.wf) (a : Nat) (b : Byte) :
    ((m.writeBytes a (bcdDigits b)).read a).toNat = b.toNat / 100 ∧
    ((m.writeBytes a (bcdDigits b)).read (a + 1)).toNat = b.toNat / 10 % 10 ∧
    ((m.writeBytes a (bcdDigits b)).read (a + 2)).toNat = b.toNat % 10 := by
  have hb := b.isLt
  have hread (k : Nat) (hk : k < 3) : (m.writeBytes a (bcdDigits b)).read (a + k) = (bcdDigits b)[k] :=
    Memory.read_writeBytes hwf a (bytes := bcdDigits b) hk
  refine ⟨?hundreds, ?tens, ?units⟩
  case hundreds => exact (congrArg BitVec.toNat (hread 0 (by decide))).trans (toNat_ofNat_byte (by omega))
  case tens => exact (congrArg BitVec.toNat (hread 1 (by decide))).trans (toNat_ofNat_byte (by omega))
  case units => exact (congrArg BitVec.toNat (hread 2 (by decide))).trans (toNat_ofNat_byte (by omega))

/-- LD_B with its three addresses inside memory stores the digits there and keeps every other byte (R143). -/
theorem exec_ldB_of_inside {x : RegIx} {s : State} (hwf : s.mem.wf) (hin : s.base + 2 < s.config.memSize) :
    ∃ t, exec (.ldB x) s = .next t ∧
      (t.mem.read s.base).toNat = (s.reg x).toNat / 100 ∧
      (t.mem.read (s.base + 1)).toNat = (s.reg x).toNat / 10 % 10 ∧
      (t.mem.read (s.base + 2)).toNat = (s.reg x).toNat % 10 ∧
      (∀ a, a < s.base ∨ s.base + 2 < a → t.mem.read a = s.mem.read a) ∧
      PcPlus s t 2 ∧ Frame [] [.mem, .pc] s t := by
  have h : exec (.ldB x) s = .next { s with mem := s.mem.writeBytes s.base (bcdDigits (s.reg x)) }.advance := by
    rw [exec, execLdB, State.storeBytes_of_inside hin, State.orRaise_ok]
  obtain ⟨hhundreds, htens, hunits⟩ := read_writeBytes_bcdDigits hwf s.base (s.reg x)
  refine ⟨_, h, hhundreds, htens, hunits, fun a ha => ?_, pcPlus_advance rfl rfl,
    frame_of_exec h (by simp [writesReg]) (by simp [writesPiece, Piece.same])⟩
  exact Memory.read_writeBytes_outside _ (by rw [length_bcdDigits]; omega)

/-- LD_B past the last address raises AddressOutOfRange (F3). -/
theorem exec_ldB_of_outside {x : RegIx} {s : State} (hout : s.config.memSize ≤ s.base + 2) :
    exec (.ldB x) s = .next { s with status := .faulted (.addressOutOfRange s.pc (max s.base s.config.memSize)) } := by
  have hlen := length_bcdDigits (s.reg x)
  rw [exec, execLdB, State.storeBytes_of_outside (by omega) (by omega), State.orRaise_error]

/-- Settles O29: the word is FX33, and I + 2 lies inside memory or past its end. -/
theorem ldBDigits : Obligations.LdBDigits :=
  ⟨fun _ _ hop hnn => decode_of_encode_eq rfl (packXNN_of_fieldOp_fieldNN hop hnn), fun _ _ => exec_ldB_of_inside,
    fun _ _ => exec_ldB_of_outside⟩

/-! ## ST_REGS (R144) -/

/-- ST_REGS with its range inside memory stores V0 to V[X] there, keeps every other byte and moves I past the range
(R144). -/
theorem exec_stRegs_of_inside {x : RegIx} {s : State} (hwf : s.mem.wf) (hin : s.base + x.toNat < s.config.memSize) :
    ∃ t, exec (.stRegs x) s = .next t ∧
      (∀ r : RegIx, r.toNat ≤ x.toNat → t.mem.read (s.base + r.toNat) = s.reg r) ∧
      (∀ a, a < s.base ∨ s.base + x.toNat < a → t.mem.read a = s.mem.read a) ∧
      t.i.toNat = (s.i.toNat + x.toNat + 1) % s.addrMod ∧
      PcPlus s t 2 ∧ Frame [] [.mem, .i, .pc] s t := by
  have h : exec (.stRegs x) s = .next (State.advance
      { s with mem := s.mem.writeBytes s.base (s.regRange x), i := s.toAddr (s.base + x.toNat + 1) }) := by
    rw [exec, execStRegs, State.storeBytes_of_inside (by rw [s.length_regRange]; omega), State.orRaise_ok]
  refine ⟨_, h, fun _ => read_writeBytes_regRange hwf, fun a ha => ?_, s.toAddr_toNat _, pcPlus_advance rfl rfl,
    frame_of_exec h (by simp [writesReg]) (by simp [writesPiece, Piece.same])⟩
  exact Memory.read_writeBytes_outside _ (by rw [s.length_regRange]; omega)

/-- ST_REGS past the last address raises AddressOutOfRange (F3). -/
theorem exec_stRegs_of_outside {x : RegIx} {s : State} (hout : s.config.memSize ≤ s.base + x.toNat) :
    exec (.stRegs x) s =
      .next { s with status := .faulted (.addressOutOfRange s.pc (max s.base s.config.memSize)) } := by
  have hlen := s.length_regRange x
  rw [exec, execStRegs, State.storeBytes_of_outside (by omega) (by omega), State.orRaise_error]

/-- Settles O30: the word is FX55, and I + X lies inside memory or past its end. -/
theorem stRegsStores : Obligations.StRegsStores :=
  ⟨fun _ _ hop hnn => decode_of_encode_eq rfl (packXNN_of_fieldOp_fieldNN hop hnn), fun _ _ => exec_stRegs_of_inside,
    fun _ _ => exec_stRegs_of_outside⟩

/-! ## LD_REGS (R145) -/

/-- A register range loaded from memory holds the bytes there, in index order (R145). -/
theorem State.reg_setRegRange_readBytes (s : State) (x r : RegIx) (m : Memory) (a : Nat) :
    (s.setRegRange x (m.readBytes a (x.toNat + 1))).reg r =
      if r.toNat ≤ x.toNat then m.read (a + r.toNat) else s.reg r := by
  rw [State.reg_setRegRange]
  refine ite_congr rfl (fun hr => ?_) fun _ => rfl
  have hlt : r.toNat < (m.readBytes a (x.toNat + 1)).length := by rw [Memory.length_readBytes]; omega
  rw [List.getD_eq_getElem _ _ hlt, Memory.getElem_readBytes]

/-- LD_REGS with its range inside memory loads V0 to V[X] from there, keeps the other registers and moves I past the
range (R145). -/
theorem exec_ldRegs_of_inside {x : RegIx} {s : State} (hin : s.base + x.toNat < s.config.memSize) :
    ∃ t, exec (.ldRegs x) s = .next t ∧
      (∀ r : RegIx, t.reg r = if r.toNat ≤ x.toNat then s.mem.read (s.base + r.toNat) else s.reg r) ∧
      t.i.toNat = (s.i.toNat + x.toNat + 1) % s.addrMod ∧
      PcPlus s t 2 ∧ ∀ p, p ∉ [Piece.i, Piece.pc] → p.same s t := by
  have h : exec (.ldRegs x) s = .next
      { s.setRegRange x (s.mem.readBytes s.base (x.toNat + 1)) with i := s.toAddr (s.base + x.toNat + 1) }.advance := by
    rw [exec, execLdRegs, State.loadBytes_of_inside (by omega), State.orRaise_ok]
  refine ⟨_, h, fun r => s.reg_setRegRange_readBytes x r s.mem s.base, s.toAddr_toNat _, pcPlus_advance rfl rfl,
    fun p hp => ?_⟩
  rcases eq_or_ne p .status with rfl | hstatus
  · rfl
  · exact (exec_within h).2 p (by simpa [writesPiece, hstatus] using hp)

/-- LD_REGS past the last address raises AddressOutOfRange (F3). -/
theorem exec_ldRegs_of_outside {x : RegIx} {s : State} (hout : s.config.memSize ≤ s.base + x.toNat) :
    exec (.ldRegs x) s =
      .next { s with status := .faulted (.addressOutOfRange s.pc (max s.base s.config.memSize)) } := by
  rw [exec, execLdRegs, State.loadBytes_of_outside (by omega) (by omega), State.orRaise_error]

/-- Settles O31: the word is FX65, and I + X lies inside memory or past its end. -/
theorem ldRegsLoads : Obligations.LdRegsLoads :=
  ⟨fun _ _ hop hnn => decode_of_encode_eq rfl (packXNN_of_fieldOp_fieldNN hop hnn), fun _ _ => exec_ldRegs_of_inside,
    fun _ _ => exec_ldRegs_of_outside⟩

/-! ## A store and the load from the same address (R50, R144, R145) -/

/-- Settles O32: LD_REGS reads each byte at the address ST_REGS wrote it to, and both move I by the same amount from
the same value. -/
theorem storeThenLoadRegisters : Obligations.StoreThenLoadRegisters := by
  intro x s hwf hin
  obtain ⟨t, ht, hstored, -, hti, -, -⟩ := exec_stRegs_of_inside hwf hin
  refine ⟨t, ht, fun u hconfig hmem hi => ?_⟩
  have hbase : u.base = s.base := congrArg BitVec.toNat hi
  have hmod : u.addrMod = s.addrMod := by rw [State.addrMod, State.addrMod, hconfig]
  obtain ⟨r, hr, hloaded, hri, -, -⟩ := exec_ldRegs_of_inside (x := x) (s := u) (by rw [hbase, hconfig]; exact hin)
  refine ⟨r, hr, BitVec.eq_of_toNat_eq (by rw [hri, hti, hi, hmod]), fun k => ?_⟩
  rw [hloaded, hmem, hbase]
  exact ite_congr rfl (hstored k) fun _ => rfl

end Sys2Proof.Machine
end

section
/-!
Display (44_display.md): CLS leaves a blank screen. DRAW flips the cells that `DrawnAt` names, which are those of the
screen under a bit of the sprite read from memory; a second draw of the same sprite flips the same cells back.
-/

namespace Sys2Proof

/-- A word with a given major opcode is that opcode packed with the word's X, Y and N (R72). -/
theorem packXYN_of_fieldOp {w : Word} {op : BitVec 4} (h : fieldOp w = op) :
    packXYN op (fieldX w) (fieldY w) (fieldN w) = w :=
  packXYN_of_fieldOp_fieldN h rfl

end Sys2Proof

namespace Sys2Proof.Machine

/-! ## CLS (R150) -/

/-- Settles O33: the word is fixed, and beside the advance CLS writes the blank screen of the configuration. -/
theorem clsClears : Obligations.ClsClears := by
  refine ⟨decode_cls, fun s => ?_⟩
  have h : exec .cls s = .next { s with screen := Screen.blank s.config.screenH s.config.screenW }.advance := rfl
  exact ⟨_, h, Screen.cell_blank _ _, Screen.shaped_blank _ _, pcPlus_advance rfl rfl,
    frame_of_exec h (by simp [writesReg]) (by simp [writesPiece])⟩

/-! ## The cells under a sprite (R152) -/

/-- The bits of a sprite in memory: row k is the byte at its address + k, and bit 7 - j falls j columns to the right
(R152 (c), (d)). -/
theorem spriteBit_readBytes_iff {m : Memory} {a n row col r c : Nat} :
    spriteBit row col (m.readBytes a n) r c = true ↔
      ∃ k j, k < n ∧ j < 8 ∧ r = row + k ∧ c = col + j ∧ (m.read (a + k)).getLsbD (7 - j) = true := by
  simp only [spriteBit, Bool.and_eq_true, decide_eq_true_eq]
  constructor
  · rintro ⟨⟨hrow, hcol, hright⟩, hbit⟩
    obtain ⟨k, rfl⟩ := Nat.exists_eq_add_of_le hrow
    obtain ⟨j, rfl⟩ := Nat.exists_eq_add_of_le hcol
    rw [Nat.add_sub_cancel_left, Nat.add_sub_cancel_left] at hbit
    by_cases hk : k < n
    · rw [List.getD_eq_getElem _ _ (by simpa using hk), Memory.getElem_readBytes] at hbit
      exact ⟨k, j, hk, by omega, rfl, rfl, hbit⟩
    · rw [List.getD_eq_default _ _ (by simpa using hk)] at hbit
      cases hbit.symm.trans BitVec.getLsbD_zero
  · rintro ⟨k, j, hk, hj, rfl, rfl, hbit⟩
    rw [Nat.add_sub_cancel_left, Nat.add_sub_cancel_left, List.getD_eq_getElem _ _ (by simpa using hk),
      Memory.getElem_readBytes]
    exact ⟨by omega, hbit⟩

section
variable {s u : State} {x y : RegIx} {n : BitVec 4}

/-- The cells DRAW flips are those of the screen under a bit of its sprite (R151, R152). -/
theorem drawnAt_iff_spriteBit {r c : Nat} : DrawnAt s x y n r c ↔
    (decide (r < s.config.screenH ∧ c < s.config.screenW) &&
      spriteBit (s.startRow y) (s.startColumn x) (s.mem.readBytes s.base n.toNat) r c) = true := by
  rw [Bool.and_eq_true, decide_eq_true_iff, spriteBit_readBytes_iff, and_assoc]
  rfl

/-- The cells DRAW flips depend on the configuration, I, the bytes of memory, V[X] and V[Y] alone. -/
theorem drawnAt_congr (hconfig : u.config = s.config) (hi : u.i = s.i) (hmem : ∀ a, u.mem.read a = s.mem.read a)
    (hx : u.reg x = s.reg x) (hy : u.reg y = s.reg y) {r c : Nat} : DrawnAt u x y n r c ↔ DrawnAt s x y n r c := by
  simp only [DrawnAt, State.base, hconfig, hi, hmem, hx, hy]

/-! ## The canvas of a DRAW (R151) -/

/-- The canvas a DRAW starts from: the screen, and no collision yet (R151). -/
def State.canvas (s : State) : Canvas := ⟨s.config.screenH, s.config.screenW, s.screen, false⟩

/-- The canvas on which DRAW has drawn the sprite it reads from memory (R151). -/
def State.drawing (s : State) (x y : RegIx) (n : BitVec 4) : Canvas :=
  s.canvas.plotSprite (s.startRow y) (s.startColumn x) (s.mem.readBytes s.base n.toNat)

/-- DRAW with its sprite inside memory leaves the canvas's screen, and the collision in VF (R151). -/
theorem exec_draw_eq_drawing (hin : n = 0 ∨ s.base + n.toNat - 1 < s.config.memSize) :
    exec (.draw x y n) s = .next (State.setReg { s with screen := (s.drawing x y n).screen } vf
      (flagByte (s.drawing x y n).collision)).advance := by
  have hfits : n.toNat = 0 ∨ s.base + n.toNat ≤ s.config.memSize := by
    rcases hin with rfl | hlt
    · exact .inl rfl
    · omega
  rw [exec, execDraw, State.loadBytes, s.transferFault_none hfits, State.orRaise_ok, State.drawing, State.canvas]

/-- DRAW with its sprite past the last address raises AddressOutOfRange (F3). -/
theorem exec_draw_of_outside (hn : n ≠ 0) (hout : s.config.memSize ≤ s.base + n.toNat - 1) :
    exec (.draw x y n) s =
      .next { s with status := .faulted (.addressOutOfRange s.pc (max s.base s.config.memSize)) } := by
  have hpos : 0 < n.toNat := Nat.pos_of_ne_zero (BitVec.toNat_ne.mp hn)
  rw [exec, execDraw, State.loadBytes_of_outside hpos (by omega), State.orRaise_error]

/-- From the start canvas to the one DRAW leaves, its sprite is drawn (R151, R152). -/
theorem State.drawing_draws (hs : s.shaped) : s.canvas.Draws (s.drawing x y n)
    (spriteBit (s.startRow y) (s.startColumn x) (s.mem.readBytes s.base n.toNat)) :=
  Canvas.plotSprite_spec hs _ _ _

/-- The canvas of a DRAW keeps the screen's shape. -/
theorem State.drawing_shaped (hs : s.shaped) :
    (s.drawing x y n).screen.shaped s.config.screenH s.config.screenW :=
  Canvas.shaped_plotSprite (cv := s.canvas) hs _ _ _

/-- The canvas of a DRAW has exactly the cells under its sprite flipped (R151). -/
theorem State.drawing_cell (hs : s.shaped) (r c : Nat) :
    (DrawnAt s x y n r c → (s.drawing x y n).screen.cell r c = !s.screen.cell r c) ∧
      (¬ DrawnAt s x y n r c → (s.drawing x y n).screen.cell r c = s.screen.cell r c) := by
  obtain ⟨-, -, -, hcell, -⟩ := State.drawing_draws (x := x) (y := y) (n := n) hs
  refine ⟨fun hdrawn => (hcell r c).trans ?_, fun hdrawn => (hcell r c).trans ?_⟩
  · exact (congrArg (s.screen.cell r c ^^ ·) (drawnAt_iff_spriteBit.mp hdrawn)).trans (Bool.xor_true _)
  · have hbit := Bool.eq_false_iff.mpr (mt drawnAt_iff_spriteBit.mpr hdrawn)
    exact (congrArg (s.screen.cell r c ^^ ·) hbit).trans (Bool.xor_false _)

/-- The canvas of a DRAW records a collision exactly when a cell under its sprite was on: outside the screen no cell
is (R151, R152 (e)). -/
theorem State.drawing_collision_iff (hs : s.shaped) :
    (s.drawing x y n).collision = true ↔ ∃ r c, DrawnAt s x y n r c ∧ s.screen.cell r c = true := by
  obtain ⟨-, -, -, -, hcollision⟩ := State.drawing_draws (x := x) (y := y) (n := n) hs
  have hinside {r c : Nat} (hon : s.screen.cell r c = true) : r < s.config.screenH ∧ c < s.config.screenW := by
    by_contra hout
    cases hon.symm.trans (Screen.cell_outside hs hout)
  have hstart : ¬ s.canvas.collision = true := Bool.false_ne_true
  rw [hcollision, or_iff_right hstart]
  refine exists₂_congr fun r c => and_congr_left fun hon => ?_
  rw [drawnAt_iff_spriteBit, decide_eq_true (hinside hon), Bool.true_and]

/-! ## DRAW (R151) -/

/-- DRAW with its sprite inside memory flips the cells under it and leaves in VF whether one of them was on (R151). -/
theorem exec_draw_of_inside (hs : s.shaped) (hin : n = 0 ∨ s.base + n.toNat - 1 < s.config.memSize) :
    ∃ t, exec (.draw x y n) s = .next t ∧
      (∀ r c, DrawnAt s x y n r c → t.screen.cell r c = !s.screen.cell r c) ∧
      (∀ r c, ¬ DrawnAt s x y n r c → t.screen.cell r c = s.screen.cell r c) ∧
      ((∃ r c, DrawnAt s x y n r c ∧ s.screen.cell r c = true) → t.reg 0xF = 1) ∧
      ((∀ r c, DrawnAt s x y n r c → s.screen.cell r c = false) → t.reg 0xF = 0) ∧
      t.shaped ∧ PcPlus s t 2 ∧ Frame [0xF] [.screen, .pc] s t := by
  have h := exec_draw_eq_drawing (x := x) (y := y) hin
  have hvf := State.reg_setReg_self { s with screen := (s.drawing x y n).screen } vf
    (flagByte (s.drawing x y n).collision)
  refine ⟨_, h, fun r c => (State.drawing_cell hs r c).1, fun r c => (State.drawing_cell hs r c).2,
    fun hon => hvf.trans (congrArg flagByte ((State.drawing_collision_iff hs).mpr hon)),
    fun hoff => hvf.trans (congrArg flagByte (Bool.eq_false_iff.mpr fun hcollision => ?_)),
    State.drawing_shaped hs, pcPlus_advance rfl rfl,
    frame_of_exec h (fun r hr => decide_eq_false (by simpa [vf] using hr)) (by simp [writesPiece, Piece.same])⟩
  obtain ⟨r, c, hdrawn, hon⟩ := (State.drawing_collision_iff hs).mp hcollision
  cases hon.symm.trans (hoff r c hdrawn)

end

/-- Settles O34: the word is DXYN, and the sprite lies inside memory or passes its end. -/
theorem drawFlipsCells : Obligations.DrawFlipsCells :=
  ⟨fun _ _ hop => decode_of_encode_eq rfl (packXYN_of_fieldOp hop), fun _ _ _ _ => exec_draw_of_inside,
    fun _ _ _ _ => exec_draw_of_outside⟩

/-- Settles O35: the second draw flips the cells the first one flipped, so each is again what it was at first, and those
it finds on are those that were off before the first. -/
theorem drawTwiceRestores : Obligations.DrawTwiceRestores := by
  intro x y n s hs hin
  obtain ⟨t, ht, hflip, hkeep, -, -, htshaped, -, hframe⟩ := exec_draw_of_inside (x := x) (y := y) hs hin
  refine ⟨t, ht, fun u hconfig hscreen hi hmem hx hy => ?_⟩
  have htconfig : t.config = s.config := hframe.2 .config (by simp)
  have hushaped : u.shaped := by
    rw [State.shaped, htconfig] at htshaped
    rwa [State.shaped, hscreen, hconfig]
  have hdrawn {a c : Nat} : DrawnAt u x y n a c ↔ DrawnAt s x y n a c := drawnAt_congr hconfig hi hmem hx hy
  obtain ⟨r, hr, hflip', hkeep', hon, hoff, hrshaped, -, hframe'⟩ :=
    exec_draw_of_inside (s := u) (x := x) (y := y) (n := n) hushaped (by rwa [State.base, hi, hconfig])
  have hrconfig : r.config = s.config := (hframe'.2 .config (by simp)).trans hconfig
  simp only [hdrawn, hscreen] at hflip' hkeep' hon hoff
  refine ⟨r, hr, Screen.ext_cells (by rwa [State.shaped, hrconfig] at hrshaped) hs fun a c => ?_, ?_, ?_⟩
  · by_cases hd : DrawnAt s x y n a c
    · rw [hflip' a c hd, hflip a c hd, Bool.not_not]
    · rw [hkeep' a c hd, hkeep a c hd]
  · rintro ⟨a, c, hd, hwas⟩
    exact hon ⟨a, c, hd, by rw [hflip a c hd, hwas]; rfl⟩
  · intro hwas
    exact hoff fun a c hd => by rw [hflip a c hd, hwas a c hd]; rfl

end Sys2Proof.Machine
end

section
/-!
Keypad and timers (45_keypad_and_timers.md): the key skips by whether V[X] names a key; LD_K by whether some key ends
its wait; the instructions that read and write DT and ST, and what LD_DT reads when ticks have passed since ST_DT.
-/

namespace Sys2Proof.Machine

/-! ## SKIP_KP and SKIP_KNP (R160, R161) -/

section
variable {s : State} {x : RegIx}

/-- V[X] below NUM_KEYS is the number of a key (R160). -/
theorem State.keyOperand_of_key (h : (s.reg x).toNat < s.config.numKeys) : s.keyOperand x = .ok (s.reg x).toNat :=
  if_pos h

/-- V[X] from NUM_KEYS on is no key's number (F6). -/
theorem State.keyOperand_of_no_key (h : s.config.numKeys ≤ (s.reg x).toNat) :
    s.keyOperand x = .error (.badKeyIndex s.pc (s.reg x)) :=
  if_neg h.not_gt

/-- SKIP_KP on a key skips when the key is down (R160). -/
theorem exec_skipKp_of_key (h : (s.reg x).toNat < s.config.numKeys) :
    exec (.skipKp x) s = .next (s.skipIf (s.keyPressed (s.reg x).toNat)) := by
  rw [exec, execSkipKp, State.keyOperand_of_key h, State.orRaise_ok]

/-- SKIP_KNP on a key skips when the key is up (R161). -/
theorem exec_skipKnp_of_key (h : (s.reg x).toNat < s.config.numKeys) :
    exec (.skipKnp x) s = .next (s.skipIf (!s.keyPressed (s.reg x).toNat)) := by
  rw [exec, execSkipKnp, State.keyOperand_of_key h, State.orRaise_ok]

end

/-- Settles O36: the words are EX9E and EXA1, and V[X] is a key's number or raises. -/
theorem skipOnKey : Obligations.SkipOnKey := by
  refine ⟨fun _ _ hop hnn => decode_of_encode_eq rfl (packXNN_of_fieldOp_fieldNN hop hnn),
    fun _ _ hop hnn => decode_of_encode_eq rfl (packXNN_of_fieldOp_fieldNN hop hnn),
    fun x s hkey => ⟨?_, ?_⟩, fun x s hkey => ⟨?_, ?_⟩⟩
  · exact exec_skips (exec_skipKp_of_key hkey) rfl
  · exact exec_skips (exec_skipKnp_of_key hkey) (by cases s.keyPressed (s.reg x).toNat <;> rfl)
  · rw [exec, execSkipKp, State.keyOperand_of_no_key hkey, State.orRaise_error]
  · rw [exec, execSkipKnp, State.keyOperand_of_no_key hkey, State.orRaise_error]

/-! ## LD_K (R163) -/

section
variable {s : State} {x : RegIx}

/-- At the default WAIT_KEY_MODE a key ends the wait when it is down (R163). -/
theorem endsWait_level_iff {k : Nat} (h : s.config.waitKeyMode = .level) :
    EndsWait s k ↔ k < s.config.numKeys ∧ s.keyPressed k = true := by
  rw [EndsWait, h]

/-- At the default WAIT_KEY_MODE a held LD_K changes nothing (R163). -/
theorem State.holdWait_level (h : s.config.waitKeyMode = .level) : s.holdWait = s := by
  rw [State.holdWait, h]

/-- At the default WAIT_KEY_MODE there is no note of the wait to remove (R163). -/
theorem State.endWait_level (h : s.config.waitKeyMode = .level) : s.endWait = s := by
  rw [State.endWait, h]

/-- In the modes press and release a held LD_K remembers the keys now down (log 35). -/
theorem State.holdWait_edge (h : s.config.waitKeyMode ≠ .level) : s.holdWait = { s with waiting := some s.keys } := by
  unfold State.holdWait
  split
  · contradiction
  · rfl
  · rfl

/-- In the modes press and release the end of the wait removes what it remembered (log 35). -/
theorem State.endWait_edge (h : s.config.waitKeyMode ≠ .level) : s.endWait = { s with waiting := none } := by
  unfold State.endWait
  split
  · contradiction
  · rfl
  · rfl

/-- LD_K is held while no key ends its wait (R163). -/
theorem exec_ldK_of_none (h : ∀ k, ¬ EndsWait s k) : exec (.ldK x) s = .next s.holdWait := by
  obtain ⟨-, hheld⟩ | ⟨k, hk, -⟩ := execLdK_eq x s
  · exact hheld
  · exact absurd ((mem_keysReported s k).mp hk) (h k)

/-- LD_K loads the number of a key that ends its wait, where there is one, and advances (R163). -/
theorem exec_ldK_of_some (h : ∃ k, EndsWait s k) :
    ∃ t, exec (.ldK x) s = .next t ∧ (∃ k, EndsWait s k ∧ (t.reg x).toNat = k % 256) ∧
      t.waiting = s.endWait.waiting ∧ PcPlus s t 2 := by
  obtain ⟨hnil, -⟩ | ⟨k, hk, d, hloads⟩ := execLdK_eq x s
  · obtain ⟨k, hk⟩ := h
    simpa [hnil] using (mem_keysReported s k).mpr hk
  · obtain ⟨w, hw⟩ := within_wait s (.inr rfl)
    refine ⟨_, hloads, ⟨k, (mem_keysReported s k).mp hk, ?_⟩, rfl, pcPlus_advance (by simp [hw]) (by simp [hw])⟩
    rw [State.advance_reg, State.reg_setReg_self, BitVec.toNat_ofNat]

end

/-- Settles O38: in every mode LD_K is held or loads, by whether some key ends its wait; the mode says what that means
and what becomes of the note of the wait. -/
theorem ldKWaitsForKey : Obligations.LdKWaitsForKey := by
  refine ⟨fun _ _ hop hnn => decode_of_encode_eq rfl (packXNN_of_fieldOp_fieldNN hop hnn),
    fun x s hmode hup => ?level_held, fun x s hmode hdown => ?level_ends,
    fun x s hmode hnone => ?edge_held, fun x s hmode hsome => ?edge_ends⟩
  case level_held =>
    have hnone : ∀ k, ¬ EndsWait s k := fun k hk => by
      obtain ⟨hlt, hpressed⟩ := (endsWait_level_iff hmode).mp hk
      exact absurd hpressed (by simp [hup k hlt])
    rw [exec_ldK_of_none hnone, State.holdWait_level hmode]
  case level_ends =>
    simp only [← endsWait_level_iff hmode] at hdown
    obtain ⟨t, ht, ⟨k, hk, hx⟩, hwaiting, hpc⟩ := exec_ldK_of_some (x := x) hdown
    obtain ⟨hlt, hpressed⟩ := (endsWait_level_iff hmode).mp hk
    rw [State.endWait_level hmode] at hwaiting
    exact ⟨t, ht, ⟨k, hlt, hpressed, hx⟩, hpc,
      frame_of_exec ht (by simp [writesReg]) (by simp [writesPiece, Piece.same, hwaiting])⟩
  case edge_held => rw [exec_ldK_of_none hnone, State.holdWait_edge hmode]
  case edge_ends =>
    obtain ⟨t, ht, hx, hwaiting, hpc⟩ := exec_ldK_of_some (x := x) hsome
    rw [State.endWait_edge hmode] at hwaiting
    exact ⟨t, ht, hx, hwaiting, hpc, frame_of_exec ht (by simp [writesReg]) (by simp [writesPiece])⟩

/-! ## The timers (R162, R164, R165) -/

/-- Settles O37: the word is FX07, and the instruction is a load of DT. -/
theorem ldDtReadsTimer : Obligations.LdDtReadsTimer :=
  ⟨fun _ _ hop hnn => decode_of_encode_eq rfl (packXNN_of_fieldOp_fieldNN hop hnn), fun _ _ => exec_loads rfl⟩

/-- ST_DT writes V[X] to DT and advances (R164). -/
theorem exec_stDt (x : RegIx) (s : State) :
    ∃ t, exec (.stDt x) s = .next t ∧ t.dt = s.reg x ∧ PcPlus s t 2 ∧ Frame [] [.dt, .pc] s t := by
  have h : exec (.stDt x) s = .next { s with dt := s.reg x }.advance := rfl
  exact ⟨_, h, rfl, pcPlus_advance rfl rfl, frame_of_exec h (by simp [writesReg]) (by simp [writesPiece])⟩

/-- The tone sounds exactly while ST is not 0 (R179). -/
theorem State.toneSounds_iff (s : State) : s.toneSounds = true ↔ s.st ≠ 0 := by
  rw [State.toneSounds, decide_eq_true_iff]
  bv_omega

/-- Settles O39: the words are FX15 and FX18, each writes its timer, and the tone follows ST. -/
theorem setTimers : Obligations.SetTimers := by
  refine ⟨fun _ _ hop hnn => decode_of_encode_eq rfl (packXNN_of_fieldOp_fieldNN hop hnn),
    fun _ _ hop hnn => decode_of_encode_eq rfl (packXNN_of_fieldOp_fieldNN hop hnn),
    fun x s => ⟨exec_stDt x s, ?_⟩⟩
  have h : exec (.stSt x) s = .next { s with st := s.reg x }.advance := rfl
  exact ⟨_, h, rfl, State.toneSounds_iff _, pcPlus_advance rfl rfl,
    frame_of_exec h (by simp [writesReg]) (by simp [writesPiece])⟩

/-! ## The delay timer over ticks (R178) -/

/-- One count takes 1 from a timer that is not 0 (R178). -/
theorem toNat_countDown (b : Byte) : (countDown b).toNat = b.toNat - 1 := by
  unfold countDown
  split
  · bv_omega
  · omega

/-- n ticks take n from each timer, and stop at 0 (R178). -/
theorem State.ticks_timers (n : Nat) (s : State) :
    (s.ticks n).dt.toNat = s.dt.toNat - n ∧ (s.ticks n).st.toNat = s.st.toNat - n := by
  induction n generalizing s with
  | zero => exact ⟨rfl, rfl⟩
  | succ n ih =>
    obtain ⟨hdt, hst⟩ := ih s.tick
    rw [State.tick_dt, toNat_countDown] at hdt
    rw [State.tick_st, toNat_countDown] at hst
    rw [State.ticks]
    omega

/-- Settles O41: LD_DT loads what n ticks leave of the value that ST_DT wrote to DT. -/
theorem delayReadAfterTicks : Obligations.DelayReadAfterTicks := by
  intro x y n s
  obtain ⟨t, ht, hdt, -⟩ := exec_stDt x s
  obtain ⟨u, hu, hy, -⟩ := exec_loads (i := .ldDt y) (s := t.ticks n) rfl
  obtain ⟨hticks, -⟩ := t.ticks_timers n
  exact ⟨t, ht, u, hu, by rw [hy, hticks, hdt]⟩

end Sys2Proof.Machine
end

section
/-!
What a step can end in and what passes between two steps (60_exceptions.md): the faults of R171's table and the one
form of every outcome of a processor step, the frame of a boundary, and the timers counting down to 0 along a run.
-/

namespace Sys2Proof.Machine

/-! ## The faults of the table (R171, R173) -/

/-- `f` is the fault of a transfer of `n` bytes from I that passes the last address (F3). -/
def TransferRaises (n : Nat) (s : State) (f : RunFault) : Prop :=
  f = .addressOutOfRange s.pc (max s.i.toNat s.config.memSize) ∧ 0 < n ∧ s.config.memSize < s.i.toNat + n

/-- `f` is the fault that R171's table lists for the instruction, and its condition holds (F3 to F7). -/
def Raises : Instr → State → RunFault → Prop
  | .call _, s, f => f = .stackOverflow s.pc ∧ s.config.stackDepth ≤ s.stack.length
  | .ret, s, f => f = .stackUnderflow s.pc ∧ s.stack = []
  | .skipKp x, s, f | .skipKnp x, s, f => f = .badKeyIndex s.pc (s.reg x) ∧ s.config.numKeys ≤ (s.reg x).toNat
  | .ldF x, s, f => f = .badFontDigit s.pc (s.reg x) ∧ 0xF < (s.reg x).toNat
  | .draw _ _ n, s, f => TransferRaises n.toNat s f
  | .ldB _, s, f => TransferRaises 3 s f
  | .stRegs x, s, f | .ldRegs x, s, f => TransferRaises (x.toNat + 1) s f
  | _, _, _ => False

/-- `f` is a fault of the fetch, of the decoder or of the decoded instruction, in that order (R173; log 28). -/
def StepRaises (s : State) (f : RunFault) : Prop :=
  (f = .fetchOutOfRange s.pc ∧ s.config.memSize ≤ s.pc.toNat + 1) ∨
  (f = .oddFetch s.pc ∧ s.config.requireEvenPc = true ∧ s.pc.toNat % 2 = 1) ∨
  ∃ w, s.fetchWord = .ok w ∧
    ((f = .illegalInstruction s.pc w ∧ ∃ r, Sys2Proof.decode s.config w = .error r) ∨
      ∃ i, Sys2Proof.decode s.config w = .ok i ∧ Raises i s f)

/-! ## Every outcome is a next state (R170, R174) -/

/-- `r` is a next state after `s`: the status stays, or the run is over and the status alone has changed, to Aborted or
to a fault that `raises` admits. -/
def EndsPrecisely (raises : RunFault → Prop) (s : State) (r : Result) : Prop :=
  ∃ t, r = .next t ∧ (t.status = s.status ∨ (∃ nnn, t = { s with status := .aborted nnn }) ∨
    ∃ f, raises f ∧ t = { s with status := .faulted f })

section
variable {raises raises' : RunFault → Prop} {s : State}

/-- More admitted faults admit the same outcomes. -/
theorem EndsPrecisely.mono {r : Result} (h : EndsPrecisely raises s r) (himp : ∀ f, raises f → raises' f) :
    EndsPrecisely raises' s r := by
  obtain ⟨t, ht, hs | ha | ⟨f, hf, hft⟩⟩ := h
  · exact ⟨t, ht, .inl hs⟩
  · exact ⟨t, ht, .inr (.inl ha)⟩
  · exact ⟨t, ht, .inr (.inr ⟨f, himp f hf, hft⟩)⟩

/-- A raise of an admitted fault (R174). -/
theorem EndsPrecisely.raise {f : RunFault} (hf : raises f) : EndsPrecisely raises s (s.raise f) :=
  ⟨_, rfl, .inr (.inr ⟨f, hf, rfl⟩)⟩

variable {α : Type} {r : Except RunFault α} {k : α → Result}

/-- An operation that answers a value goes on with it. -/
theorem EndsPrecisely.of_ok {a : α} (e : r = .ok a) (hk : EndsPrecisely raises s (k a)) :
    EndsPrecisely raises s (s.orRaise r k) := by
  rwa [e, State.orRaise_ok]

/-- An operation that answers an admitted fault raises it. -/
theorem EndsPrecisely.of_error {f : RunFault} (e : r = .error f) (hf : raises f) :
    EndsPrecisely raises s (s.orRaise r k) := by
  rw [e]
  exact .raise hf

end

/-- The two writes of a flag-writing instruction leave the status alone. -/
@[simp] theorem State.writeFlagged_status (s : State) (x : RegIx) (b c : Byte) :
    (s.writeFlagged x b c).status = s.status := by
  rcases s.writeFlagged_eq x b c with ⟨-, h⟩ | ⟨-, h⟩ <;> rw [h] <;> simp

/-- A transfer of bytes from memory, after which the status is as before, raises F3 or goes on (R51). -/
theorem endsPrecisely_loadBytes (s : State) (n : Nat) {k : List Byte → State}
    (hk : ∀ bytes, (k bytes).status = s.status) :
    EndsPrecisely (TransferRaises n s) s (s.orRaise (s.loadBytes s.base n) fun bytes => .next (k bytes)) := by
  obtain ⟨-, e⟩ | ⟨hn, hout, e⟩ := s.loadBytes_eq s.base n
  · exact .of_ok e ⟨_, rfl, .inl (hk _)⟩
  · exact .of_error e ⟨rfl, hn, hout⟩

/-- A transfer of bytes to memory, after which the status is as before, raises F3 or goes on (R51). -/
theorem endsPrecisely_storeBytes (s : State) {bytes : List Byte} {n : Nat} (hlen : bytes.length = n)
    {k : State → State} (hk : ∀ u, (k u).status = u.status) :
    EndsPrecisely (TransferRaises n s) s (s.orRaise (s.storeBytes s.base bytes) fun u => .next (k u)) := by
  subst hlen
  obtain ⟨-, e⟩ | ⟨hn, hout, e⟩ := s.storeBytes_eq s.base bytes
  · exact .of_ok e ⟨_, rfl, .inl (hk _)⟩
  · exact .of_error e ⟨rfl, hn, hout⟩

/-- An instruction that reads a key operand, with the status kept where it goes on, raises F6 or goes on (R160). -/
theorem endsPrecisely_keyOperand (s : State) (x : RegIx) {k : Nat → State} (hk : ∀ n, (k n).status = s.status) :
    EndsPrecisely (Raises (.skipKp x) s) s (s.orRaise (s.keyOperand x) fun n => .next (k n)) := by
  obtain ⟨-, e⟩ | ⟨hkey, e⟩ := s.keyOperand_eq x
  · exact .of_ok e ⟨_, rfl, .inl (hk _)⟩
  · exact .of_error e ⟨rfl, hkey⟩

/-- Every instruction answers a next state; it ends the run only by SYS's abort or by a fault listed for it. -/
theorem exec_endsPrecisely (i : Instr) (s : State) : EndsPrecisely (Raises i s) s (exec i s) := by
  cases i with
  | sys nnn => exact ⟨_, rfl, .inr (.inl ⟨nnn, rfl⟩)⟩
  | ret =>
    obtain ⟨a, rest, -, e⟩ | ⟨hnil, e⟩ := s.pop_eq
    · exact .of_ok e ⟨_, rfl, .inl rfl⟩
    · exact .of_error e ⟨rfl, hnil⟩
  | call nnn =>
    obtain ⟨-, e⟩ | ⟨hfull, e⟩ := s.push_eq (s.toAddr (s.pc.toNat + 2))
    · exact .of_ok e ⟨_, rfl, .inl rfl⟩
    · exact .of_error e ⟨rfl, hfull⟩
  | skipKp x | skipKnp x => exact endsPrecisely_keyOperand s x fun _ => rfl
  | ldF x =>
    obtain ⟨-, e⟩ | ⟨hdigit, e⟩ := s.digitOperand_eq x
    · exact .of_ok e ⟨_, rfl, .inl rfl⟩
    · exact .of_error e ⟨rfl, hdigit⟩
  | draw x y n => exact endsPrecisely_loadBytes s n.toNat fun _ => rfl
  | ldRegs x => exact endsPrecisely_loadBytes s (x.toNat + 1) fun _ => rfl
  | ldB x => exact endsPrecisely_storeBytes s (length_bcdDigits (s.reg x)) fun _ => rfl
  | stRegs x => exact endsPrecisely_storeBytes s (s.length_regRange x) fun _ => rfl
  | addReg | sub | shr | subn | shl => exact ⟨_, rfl, .inl (State.writeFlagged_status ..)⟩
  | ldK x =>
    obtain ⟨-, e⟩ | ⟨k, -, d, e⟩ := execLdK_eq x s
    · obtain ⟨w, hw⟩ := within_wait s (.inl rfl)
      exact ⟨_, e, .inl (by rw [hw])⟩
    · obtain ⟨w, hw⟩ := within_wait s (.inr rfl)
      exact ⟨_, e, .inl (by simp [hw])⟩
  | _ => exact ⟨_, rfl, .inl rfl⟩

/-- Every processor step answers a next state; it ends the run only by an abort or by a listed fault (R170, R173). -/
theorem processorStep_endsPrecisely (s : State) : EndsPrecisely (StepRaises s) s (processorStep s) := by
  obtain ⟨-, -, e⟩ | ⟨hpast, e⟩ | ⟨-, hodd, e⟩ := s.fetchWord_eq
  · refine .of_ok e ?_
    cases hd : Sys2Proof.decode s.config _ with
    | ok i => exact (exec_endsPrecisely i s).mono fun f hf => .inr (.inr ⟨_, e, .inr ⟨i, hd, hf⟩⟩)
    | error r => exact .raise (.inr (.inr ⟨_, e, .inl ⟨rfl, r, hd⟩⟩))
  · exact .of_error e (.inl ⟨rfl, hpast⟩)
  · exact .of_error e (.inr (.inl ⟨rfl, s.oddRefused_eq.mp hodd⟩))

/-- A boundary leaves the status alone, whether the run goes on or is over. -/
@[simp] theorem State.boundary_status (s : State) : s.boundary.status = s.status := by
  by_cases h : s.status = .running
  · rw [s.boundary_running h]
  · rw [s.boundary_ended h]

/-- Settles O43: the processor step has a next state, and the boundary after it keeps a run going, and an ended run as
it is. -/
theorem stepHasNextState : Obligations.StepHasNextState := by
  intro s hs
  obtain ⟨u, hu, hgoes | ⟨nnn, rfl⟩ | ⟨f, -, rfl⟩⟩ := processorStep_endsPrecisely s
  all_goals refine ⟨_, (step_of_running hs).trans (congrArg thenBoundary hu), ?_⟩
  · exact .inl ((State.boundary_status u).trans (hgoes.trans hs))
  · exact .inr (.inl ⟨nnn, rfl⟩)
  · exact .inr (.inr ⟨f, rfl⟩)

/-- A fault that ended a step's run is one the table lists. -/
theorem stepRaises_of_step {s t : State} {f : RunFault} (h : step s = .next t) (hf : t.status = .faulted f) :
    StepRaises s f := by
  obtain ⟨hs, u, hu, rfl⟩ := step_next h
  rw [State.boundary_status] at hf
  obtain ⟨v, hv, hends⟩ := processorStep_endsPrecisely s
  cases hu.symm.trans hv
  obtain hgoes | ⟨nnn, rfl⟩ | ⟨g, hg, rfl⟩ := hends
  · cases hf.symm.trans (hgoes.trans hs)
  · cases hf
  · cases hf
    exact hg

/-- Settles O45: the fault is a listed one, of the fetch, of the decoder or of the decoded instruction. -/
theorem faultsOnlyWhereListed : Obligations.FaultsOnlyWhereListed := by
  intro s t f h hf
  obtain hfetch | hodd | ⟨w, hw, hill | ⟨i, hi, hraises⟩⟩ := stepRaises_of_step h hf
  · exact .inl hfetch
  · exact .inr (.inl hodd)
  · exact .inr (.inr ⟨w, hw, .inl hill⟩)
  refine .inr (.inr ⟨w, hw, .inr ⟨i, hi, ?_⟩⟩)
  cases i with
  | call nnn =>
    obtain ⟨rfl, hfull⟩ := hraises
    exact .inl ⟨rfl, hfull, nnn, rfl⟩
  | ret =>
    obtain ⟨rfl, hnil⟩ := hraises
    exact .inr (.inl ⟨rfl, hnil, rfl⟩)
  | skipKp x | skipKnp x =>
    obtain ⟨rfl, hkey⟩ := hraises
    exact .inr (.inr (.inl ⟨x, rfl, hkey, by simp⟩))
  | ldF x =>
    obtain ⟨rfl, hdigit⟩ := hraises
    exact .inr (.inr (.inr (.inl ⟨x, rfl, hdigit, rfl⟩)))
  | draw x y n =>
    obtain ⟨rfl, hn, hout⟩ := hraises
    have hne : n ≠ 0 := by bv_omega
    exact .inr (.inr (.inr (.inr ⟨rfl, .inl ⟨x, y, n, rfl, hne, by omega⟩⟩)))
  | ldB x =>
    obtain ⟨rfl, -, hout⟩ := hraises
    exact .inr (.inr (.inr (.inr ⟨rfl, .inr (.inl ⟨x, rfl, by omega⟩)⟩)))
  | stRegs x | ldRegs x =>
    obtain ⟨rfl, -, hout⟩ := hraises
    exact .inr (.inr (.inr (.inr ⟨rfl, .inr (.inr ⟨x, by simp, by omega⟩)⟩)))
  | _ => exact hraises.elim

/-! ## The boundary between two steps (R178, R182) -/

/-- While the run goes on a boundary takes its moment's ticks from each timer (R178). -/
theorem State.boundary_timers {s : State} (hs : s.safe) :
    s.boundary.dt.toNat = s.dt.toNat - s.nextMoment.ticks ∧
      s.boundary.st.toNat = s.st.toNat - s.nextMoment.ticks := by
  rw [s.boundary_running hs]
  exact s.ticks_timers s.nextMoment.ticks

/-- A boundary stays within the timers, the key set and the model's schedule and counter (R178, R182). -/
theorem State.boundary_frame {s : State} (hs : s.safe) :
    Frame [] [.dt, .st, .keys, .schedule, .turns] s s.boundary := by
  rw [s.boundary_running hs]
  refine ⟨fun _ _ => rfl, fun p hp => ?_⟩
  cases p with
  | dt | st | keys | schedule | turns => simp at hp
  | mem => exact fun _ => rfl
  | _ => rfl

/-- Settles O42: a running machine's boundary passes the next moment, which is the schedule's first where it has one;
an ended machine has none. -/
theorem boundaryTouchesTimersAndKeys : Obligations.BoundaryTouchesTimersAndKeys := by
  refine ⟨fun s hs => ?_, fun s m rest hs hm => ?_, fun s => s.boundary_ended⟩
  · obtain ⟨hdt, hst⟩ := State.boundary_timers hs
    exact ⟨State.boundary_frame hs, by omega, by omega⟩
  · have hnext : s.nextMoment = m := by rw [State.nextMoment, hm]
    obtain ⟨hdt, hst⟩ := State.boundary_timers hs
    rw [hnext] at hdt hst
    exact ⟨hdt, hst, by rw [s.boundary_running hs, hnext], by rw [s.boundary_running hs, hm, List.tail_cons]⟩

/-! ## The timers along a run (R178, R193) -/

/-- Ticks stay within the two timers (R178). -/
theorem State.ticks_frame (n : Nat) (s : State) : Frame [] [.dt, .st] s (s.ticks n) := by
  rw [s.ticks_eq n]
  refine ⟨fun _ _ => rfl, fun p hp => ?_⟩
  cases p with
  | dt | st => simp at hp
  | mem => exact fun _ => rfl
  | _ => rfl

/-- The tone sounds after n ticks exactly when ST had more than n (R179). -/
theorem State.toneSounds_ticks_iff (n : Nat) (s : State) : (s.ticks n).toneSounds = true ↔ n < s.st.toNat := by
  obtain ⟨-, hst⟩ := s.ticks_timers n
  rw [State.toneSounds, decide_eq_true_iff, hst]
  exact Nat.sub_pos_iff_lt

/-- A step after which the run goes on, and which is not ST_DT's, takes its boundary's ticks from DT (R26, R178). -/
theorem step_dt {s t : State} (h : step s = .next t) (ht : t.safe)
    (hset : ∀ w x, s.fetchWord = .ok w → Sys2Proof.decode s.config w ≠ .ok (.stDt x)) :
    t.dt.toNat = s.dt.toNat - s.nextMoment.ticks := by
  obtain ⟨-, u, hu, rfl⟩ := step_next h
  obtain ⟨w, i, hw, hi, e⟩ | ⟨f, e⟩ := processorStep_cases s <;> rw [e] at hu
  · have hdt : u.dt = s.dt := by
      by_contra hne
      obtain ⟨x, rfl⟩ := dt_mem_writesPiece (mem_writesPiece_of_not_same (p := .dt) hu hne)
      exact hset w x hw hi
    obtain ⟨hboundary, -⟩ := State.boundary_timers ((State.boundary_status u).symm.trans ht)
    rw [hboundary, hdt, exec_nextMoment hu]
  · cases hu
    cases ht

section
variable {r : Nat → State} {n : Nat}

/-- On a run without ST_DT from the n-th state on, a boundary's ticks are all that changes DT (R178). -/
theorem IsRun.dt_succ (hrun : IsRun r) (hset : NeverSetsDelay r n) {m : Nat} (hm : n ≤ m) :
    (r (m + 1)).dt.toNat = (r m).dt.toNat - (r m).nextMoment.ticks :=
  step_dt (hrun m) (hrun.running (m + 1)) (hset m hm)

/-- On such a run DT never rises (R178). -/
theorem IsRun.dt_le (hrun : IsRun r) (hset : NeverSetsDelay r n) {m : Nat} (hm : n ≤ m) :
    (r m).dt.toNat ≤ (r n).dt.toNat := by
  have hanti := antitoneOn_nat_Ici_of_succ_le (f := fun k => (r k).dt.toNat)
    fun k hk => (hrun.dt_succ hset hk).trans_le (Nat.sub_le _ _)
  exact hanti (Nat.le_refl n) hm hm

/-- On such a run, with a fair timer agent, DT falls further as long as it is not 0 (R178, R193). -/
theorem IsRun.dt_falls (hrun : IsRun r) (hfair : TimerFair r) (hset : NeverSetsDelay r n)
    (hpos : 0 < (r n).dt.toNat) : ∃ m, n ≤ m ∧ (r m).dt.toNat < (r n).dt.toNat := by
  obtain ⟨m, hm, htick⟩ := hfair n hpos
  have hle := hrun.dt_le hset hm
  have hsucc := hrun.dt_succ hset hm
  exact ⟨m + 1, by omega, by omega⟩

/-- With a fair timer agent DT, no longer written, becomes 0: it cannot fall for ever (R178). -/
theorem IsRun.dt_reaches_zero (hrun : IsRun r) (hfair : TimerFair r) (hset : NeverSetsDelay r n) :
    ∃ m, n ≤ m ∧ (r m).dt = 0 := by
  induction hd : (r n).dt.toNat using Nat.strong_induction_on generalizing n with
  | h d ih =>
    obtain rfl | hpos := Nat.eq_zero_or_pos d
    · exact ⟨n, le_rfl, BitVec.eq_of_toNat_eq hd⟩
    · obtain ⟨m, hm, hlt⟩ := hrun.dt_falls hfair hset (hd ▸ hpos)
      obtain ⟨k, hk, hzero⟩ := ih _ (hd ▸ hlt) (fun j hj => hset j (hm.trans hj)) rfl
      exact ⟨k, hm.trans hk, hzero⟩

end

/-- Settles O40: ticks by their count, and a run by the value of DT, which falls until it is 0. -/
theorem ticksCountDownToZero : Obligations.TicksCountDownToZero := by
  refine ⟨fun n s => ?_, fun r n => IsRun.dt_reaches_zero⟩
  obtain ⟨hdt, hst⟩ := s.ticks_timers n
  exact ⟨hdt, hst, s.toneSounds_ticks_iff n, s.ticks_frame n⟩

end Sys2Proof.Machine
end

section
/-!
The launch (70_reset_and_hazards.md R190): a launch that fits starts from one state, which meets the invariant and whose
memory holds the program, the font and INIT; any other launch has none.
-/

namespace Sys2Proof.Machine

variable {p : Launch}

/-! ## The launch state (R190) -/

/-- The state a launch that fits starts from: reset, with what the launch supplies (R35, R190). -/
def Launch.initialState (p : Launch) : State :=
  let s := { State.reset with config := p.config }
  { s with
    v := p.v, i := s.toAddr p.i.toNat, pc := s.toAddr p.config.programBase, dt := p.dt, st := p.st
    screen := p.screen, keys := p.keys, mem := p.memory }

/-- A launch that fits has its initial state as launch state (R190). -/
theorem State.launch_of_fits (h : p.fits) : State.launch p = some p.initialState := if_pos h

/-- A launch that does not fit has no launch state (U18, log 31). -/
theorem State.launch_of_not_fits (h : ¬ p.fits) : State.launch p = none := if_neg h

/-- A launch has a launch state exactly when it fits, and then it is the initial state. -/
theorem State.launch_eq_some_iff {s : State} : State.launch p = some s ↔ p.fits ∧ p.initialState = s := by
  by_cases h : p.fits
  · rw [State.launch_of_fits h, Option.some.injEq, and_iff_right h]
  · rw [State.launch_of_not_fits h]
    exact ⟨nofun, fun ⟨hfits, _⟩ => absurd hfits h⟩

/-- The font of a launch that fits lies below 0x512 (R56). -/
theorem Launch.fontPlaced_of_fits (h : p.fits) : p.config.fontPlaced := by
  obtain ⟨-, -, hplaced, -⟩ := h
  exact hplaced

theorem Launch.initialState_pc : p.initialState.pc.toNat = p.config.programBase % p.initialState.addrMod :=
  State.toAddr_toNat _ _

theorem Launch.initialState_i : p.initialState.i.toNat = p.i.toNat % p.initialState.addrMod :=
  State.toAddr_toNat _ _

/-! ## The memory of the launch state (R190, R35) -/

/-- The launch's memory is canonical: each of its three layers is written byte by byte. -/
theorem Launch.wf_memory (p : Launch) : p.memory.wf :=
  Memory.wf_writeBytes (Memory.wf_writeBytes (Memory.wf_writeCells _ (Memory.wf_zero _) _) _ _) _ _

/-- The memory of a launch that fits lists existing addresses alone (R50). -/
theorem Launch.within_memory (h : p.fits) : p.memory.within p.config.memSize := by
  obtain ⟨hprogram, hfont, -, -⟩ := h
  refine Memory.within_writeBytes (Memory.within_writeBytes ?_ (.inr ?_)) (.inr hprogram)
  · exact Memory.within_writeCells (Memory.within_zero _) p.mem
  · rwa [Vector.length_toList]

/-- The program stands in the launch's memory from PROGRAM_BASE (R190). -/
theorem Launch.read_memory_program (p : Launch) {k : Nat} (hk : k < p.program.length) :
    p.memory.read (p.config.programBase + k) = p.program[k] :=
  Memory.read_writeBytes (Memory.wf_writeBytes (Memory.wf_writeCells _ (Memory.wf_zero _) _) _ _) _ hk

/-- The font stands in the memory of a launch that fits from FONT_BASE: the program is written beside it (R56, R190). -/
theorem Launch.read_memory_font (h : p.fits) {k : Nat} (hk : k < 80) :
    p.memory.read (p.config.fontBase + k) = p.config.font[k] := by
  obtain ⟨-, -, -, hapart⟩ := h
  have hlen : k < p.config.font.toList.length := by rwa [Vector.length_toList]
  rw [Launch.memory, Memory.read_writeBytes_outside _ (by omega),
    Memory.read_writeBytes (Memory.wf_writeCells _ (Memory.wf_zero _) _) _ hlen, Vector.getElem_toList]

/-- An address beside the font and the program reads as INIT's layer does (R190). -/
theorem Launch.read_memory_outside {a : Nat} (hfont : a < p.config.fontBase ∨ p.config.fontBase + 80 ≤ a)
    (hprogram : a < p.config.programBase ∨ p.config.programBase + p.program.length ≤ a) :
    p.memory.read a = (Memory.writeCells p.config.memSize (Memory.zero p.config.memSize) p.mem).read a := by
  rw [Launch.memory, Memory.read_writeBytes_outside _ hprogram,
    Memory.read_writeBytes_outside _ (by rwa [Vector.length_toList])]

/-! ## Every launch -/

/-- PROGRAM_BASE of a launch that fits lies in memory or at its end, so pc keeps its bound (R23, R190). -/
theorem Launch.initialState_pc_le (h : p.fits) : p.initialState.pc.toNat ≤ p.config.memSize := by
  obtain ⟨hprogram, -, -, -⟩ := h
  rw [Launch.initialState_pc]
  exact (Nat.mod_le _ _).trans (by omega)

/-- Settles O56: the stack is empty, memory and screen are built in their form, and pc and I are cut to their width. -/
theorem invariantAtLaunch : Obligations.InvariantAtLaunch := by
  intro p s hlaunch
  obtain ⟨h, rfl⟩ := State.launch_eq_some_iff.mp hlaunch
  have hpc : p.initialState.pc.toNat ≤ max (p.config.memSize + 2) 0x10FE := by
    have := Launch.initialState_pc_le h
    omega
  exact ⟨p.wf_memory, Launch.within_memory h, Nat.zero_le _, nofun, hpc, State.toAddr_lt _ _, State.toAddr_lt _ _,
    p.shaped_screen, Launch.fontPlaced_of_fits h⟩

/-- At the default configuration 3584 bytes are left from PROGRAM_BASE, past the font (R56, R190). -/
theorem Launch.fits_iff_of_default (h : p.config = {}) : p.fits ↔ p.program.length ≤ 3584 := by
  rw [Launch.fits, h]
  simp only [Config.fontPlaced]
  omega

/-- Settles O57: the layers of the launch's memory are read one over the other, and a font past 0x512 is a launch that
does not fit. -/
theorem launchBuildsState : Obligations.LaunchBuildsState := by
  refine ⟨fun p h hcells hnodup => ⟨p.initialState, State.launch_of_fits h, fun k => p.read_memory_program,
    fun k => Launch.read_memory_font h, fun k hk => ?_, fun a ha hfont hprogram => ?_, p.cell_screen, rfl,
    Launch.initialState_i, rfl, rfl, rfl, rfl, Launch.initialState_pc, rfl, rfl⟩,
    fun p => State.launch_of_not_fits, fun p hbase => State.launch_of_not_fits ?_,
    fun p => Launch.fits_iff_of_default⟩
  · have := Launch.fontPlaced_of_fits h
    omega
  · show (∀ b, _ → p.memory.read a = b) ∧ (_ → p.memory.read a = 0)
    rw [Launch.read_memory_outside hfont hprogram]
    exact ⟨fun b => Memory.read_writeCells (Memory.wf_zero _) hcells hnodup,
      fun hunnamed => (Memory.read_writeCells_outside _ _ hunnamed).trans (Memory.read_zero ha)⟩
  · intro h
    have := Launch.fontPlaced_of_fits h
    omega

end Sys2Proof.Machine
end
